-- ==== Sys2Proof/Word.lean ====
section
/-! DEFINITION. The byte, the 20-bit command word, and the constants of the frame format (00_scope.md rule R4). -/

namespace Sys2Proof

/-- A byte: an unsigned value 0 to 255, the addressable unit (20_memory.md rule R30). -/
abbrev Byte := BitVec 8

/-- The command word op[19:16], a[15:8], b[7:0] (30_encoding.md rule R57). -/
abbrev CommandWord := BitVec 20

/-- `HEADER` (R4). -/
abbrev header : Byte := 0xBB#8

/-- `TERMINATOR` (R4). -/
abbrev terminator : Byte := 0x7E#8

/-- `TYPE_COMMAND` (R4). -/
abbrev typeCommand : Byte := 0x00#8

/-- `TYPE_RESPONSE` (R4). -/
abbrev typeResponse : Byte := 0x01#8

/-- `TYPE_NOTIFICATION` (R4). -/
abbrev typeNotification : Byte := 0x02#8

/-- `CMD_INVENTORY` (R4). -/
abbrev cmdInventory : Byte := 0x22#8

/-- `CMD_ERROR` (R4). -/
abbrev cmdError : Byte := 0xFF#8

/-- `PL_MAX` (R4). -/
abbrev plMax : Nat := 65535

end Sys2Proof
end

