-- ==== Sys2Proof/Syntax.lean ====
section
/-! DEFINITION. The instructions: one constructor per row of spec/opcode_table.json (30_encoding.md rules R52, R58). -/

namespace Sys2Proof

/-- The operations of the block (R58), the reserved operation codes (R59), and the frame shapes of the shape map (R52),
each in the table's order. An operand is a byte of the command word, or a byte of the frame's first three. -/
inductive Instr where
  /-- CLR, op 0x1 (R110). -/
  | clr
  /-- PUSH x, op 0x2, `a` = x (R111). -/
  | push (x : Byte)
  /-- ENC t, c, op 0x3, `a` = t, `b` = c (R66). -/
  | enc (t c : Byte)
  /-- ENC.INV, op 0x4 (R67). -/
  | encInv
  /-- CSUM, op 0x5 (R75). -/
  | csum
  /-- VERIFY, op 0x6 (R77). -/
  | verify
  /-- WFCHK, op 0x7 (R81). -/
  | wfchk
  /-- PEXT, op 0x8 (R106). -/
  | pext
  /-- DEC, op 0x9 (R92). -/
  | dec
  /-- SETCFG v, op 0xA, `a` = v (R112). -/
  | setcfg (v : Byte)
  /-- RESERVED.0, op 0x0 (R113). -/
  | reserved0
  /-- RESERVED.B, op 0xB (R113). -/
  | reservedB
  /-- RESERVED.C, op 0xC (R113). -/
  | reservedC
  /-- RESERVED.D, op 0xD (R113). -/
  | reservedD
  /-- RESERVED.E, op 0xE (R113). -/
  | reservedE
  /-- RESERVED.F, op 0xF (R113). -/
  | reservedF
  /-- FRAME.RSP.ERR, bytes BB 01 FF (R52 row 2, R88). -/
  | frameRspErr
  /-- FRAME.RSP.OTHER, bytes BB 01 c (R52 row 3, R88). -/
  | frameRspOther (c : Byte)
  /-- FRAME.NTF.TAG, bytes BB 02 22 (R52 row 4, R89). -/
  | frameNtfTag
  /-- FRAME.CMD.INV, bytes BB 00 22 (R52 row 5, R90). -/
  | frameCmdInv
  /-- FRAME.OTHER, bytes BB t c (R52 row 5, R90). -/
  | frameOther (t c : Byte)
  /-- FRAME.NOHEADER, bytes h t c (R52 row 1, R87). -/
  | frameNoHeader (h t c : Byte)
  deriving DecidableEq, Repr

end Sys2Proof
end

