-- ==== Sys2Proof/WellFormed.lean ====
section
/-! DEFINITION. Which terms of `Instr` the table's rows stand for: the priority order of the shape map (30_encoding.md
rule R52) leaves a lower row only the bytes no higher row takes. -/

namespace Sys2Proof

/-- The bytes of a frame row are bytes for which that row, and no row of higher priority, applies (R52). Every operand
of an operation may have any value (R57, R66, R111, R112). -/
def Instr.wellFormed : Instr → Bool
  | .frameRspOther c => c != cmdError
  | .frameOther t c =>
      t != typeResponse && !(t == typeNotification && c == cmdInventory) && !(t == typeCommand && c == cmdInventory)
  | .frameNoHeader h _ _ => h != header
  | .clr | .push _ | .enc _ _ | .encInv | .csum | .verify | .wfchk | .pext | .dec | .setcfg _ => true
  | .reserved0 | .reservedB | .reservedC | .reservedD | .reservedE | .reservedF => true
  | .frameRspErr | .frameNtfTag | .frameCmdInv => true

end Sys2Proof
end

