-- ==== Sys2Proof/Decode.lean ====
section
/-! DEFINITION. From words to instructions and back: the command word (30_encoding.md rules R57, R58) and the shape map
over a frame's first three bytes (rule R52). -/

namespace Sys2Proof

/-- Why bits are no instruction: each is the spec's own bound on what is presented. -/
inductive DecodeError where
  /-- A command word has 20 bits (R57); this number does not fit them. -/
  | wordTooWide
  /-- The shape map applies after the length test of 42_decoder.md rule R86; these are fewer than 7 bytes. -/
  | frameTooShort
  deriving DecidableEq, Repr

/-- The two things the spec encodes (opening of 30_encoding.md): the command word, and the key of a wire frame. -/
inductive Encoding where
  | command (w : CommandWord)
  | frame (h t c : Byte)
  deriving DecidableEq, Repr

/-- Field `op`, bits 19:16 (R57). -/
def opField (w : CommandWord) : BitVec 4 := w.extractLsb' 16 4

/-- Field `a`, bits 15:8 (R57). -/
def aField (w : CommandWord) : Byte := w.extractLsb' 8 8

/-- Field `b`, bits 7:0 (R57). -/
def bField (w : CommandWord) : Byte := w.extractLsb' 0 8

/-- The operation a command word selects (R58). Every word selects one: the last line is code 0xF, the only one left.
The fields an operation has no operand in are ignored (R57). -/
def decodeCommand (w : CommandWord) : Instr :=
  match (opField w).toNat with
  | 0x0 => .reserved0
  | 0x1 => .clr
  | 0x2 => .push (aField w)
  | 0x3 => .enc (aField w) (bField w)
  | 0x4 => .encInv
  | 0x5 => .csum
  | 0x6 => .verify
  | 0x7 => .wfchk
  | 0x8 => .pext
  | 0x9 => .dec
  | 0xA => .setcfg (aField w)
  | 0xB => .reservedB
  | 0xC => .reservedC
  | 0xD => .reservedD
  | 0xE => .reservedE
  | _ => .reservedF

/-- The row of the shape map that a frame's first three bytes select: first match applies (R52 and the table's
priorities). -/
def frameRow (h t c : Byte) : Instr :=
  if h ≠ header then .frameNoHeader h t c
  else if t = typeResponse ∧ c = cmdError then .frameRspErr
  else if t = typeResponse then .frameRspOther c
  else if t = typeNotification ∧ c = cmdInventory then .frameNtfTag
  else if t = typeCommand ∧ c = cmdInventory then .frameCmdInv
  else .frameOther t c

/-- Decoding of either kind of encoding. -/
def decode : Encoding → Instr
  | .command w => decodeCommand w
  | .frame h t c => frameRow h t c

/-- Decoding of any number offered as a command word. -/
def decodeWord (n : Nat) : Except DecodeError Instr :=
  if n < 2 ^ 20 then .ok (decodeCommand (BitVec.ofNat 20 n)) else .error .wordTooWide

/-- Decoding of any bytes offered as a wire frame (R52, after the length test of R86). -/
def decodeFrameBytes (b : List Byte) : Except DecodeError Instr :=
  if b.length < 7 then .error .frameTooShort
  else match b with
    | h :: t :: c :: _ => .ok (frameRow h t c)
    | _ => .error .frameTooShort

/-- A command word from its three fields (R57). -/
def commandWord (op : BitVec 4) (a b : Byte) : CommandWord := op ++ a ++ b

/-- The encoding of an instruction: unused fields are written as 0 (92_eei_decisions.md D8). -/
def encode : Instr → Encoding
  | .clr => .command (commandWord 0x1 0 0)
  | .push x => .command (commandWord 0x2 x 0)
  | .enc t c => .command (commandWord 0x3 t c)
  | .encInv => .command (commandWord 0x4 0 0)
  | .csum => .command (commandWord 0x5 0 0)
  | .verify => .command (commandWord 0x6 0 0)
  | .wfchk => .command (commandWord 0x7 0 0)
  | .pext => .command (commandWord 0x8 0 0)
  | .dec => .command (commandWord 0x9 0 0)
  | .setcfg v => .command (commandWord 0xA v 0)
  | .reserved0 => .command (commandWord 0x0 0 0)
  | .reservedB => .command (commandWord 0xB 0 0)
  | .reservedC => .command (commandWord 0xC 0 0)
  | .reservedD => .command (commandWord 0xD 0 0)
  | .reservedE => .command (commandWord 0xE 0 0)
  | .reservedF => .command (commandWord 0xF 0 0)
  | .frameRspErr => .frame 0xBB 0x01 0xFF
  | .frameRspOther c => .frame 0xBB 0x01 c
  | .frameNtfTag => .frame 0xBB 0x02 0x22
  | .frameCmdInv => .frame 0xBB 0x00 0x22
  | .frameOther t c => .frame 0xBB t c
  | .frameNoHeader h t c => .frame h t c

/-- What the opcode table's numbering makes of a number: a command word is its own 20 bits, a frame row is the 24-bit key
byte0, byte1, byte2. A number below 2^20 is read as a command word, so a frame key whose first byte is below 0x10 is not
reached by this reading (log 10). -/
def tableEncoding (nbits w : Nat) : Option Encoding :=
  if nbits < 20 then none
  else if w < 2 ^ 20 then some (.command (BitVec.ofNat 20 w))
  else if nbits < 24 ∨ 2 ^ 24 ≤ w then none
  else some (.frame (BitVec.ofNat 8 (w / 65536)) (BitVec.ofNat 8 (w / 256)) (BitVec.ofNat 8 w))

/-- The instruction the decoder reads from bits numbered as spec/opcode_table.json numbers them. -/
def decodeTableWord (nbits w : Nat) : Option Instr :=
  (tableEncoding nbits w).map decode

end Sys2Proof
end

