-- ==== Sys2Proof/Machine/Data.lean ====
section
/-! DEFINITION. The three kinds of value the source defines (10_state.md rule R10), and the model's names for RES.FAIL. -/

namespace Sys2Proof.Machine

/-- `Frame`, the wire unit (R10, 30_encoding.md rule R45). -/
structure Frame where
  header : Byte
  frameType : Byte
  command : Byte
  payloadLength : BitVec 16
  payload : List Byte
  checksum : Byte
  terminator : Byte
  deriving DecidableEq, Repr

/-- `DecodedEvent`, the semantic result of a successful decode (R10). -/
inductive DecodedEvent where
  | tagDetected (rssi : Byte) (pc : BitVec 16) (epc : List Byte)
  | errorReported (code : Byte)
  | unrecognized
  deriving DecidableEq, Repr

/-- `DecodeFailure` (R10; causes in 60_exceptions.md rule R120). -/
inductive DecodeFailure where
  | tooShort
  | badHeader
  | incompletePayload
  | badChecksum
  | unknownShape
  deriving DecidableEq, Repr

/-- What RES.FAIL can name (10_state.md rule R17): a `DecodeFailure`, or the encoder's own `OperandRange`
(60_exceptions.md rule R121). -/
inductive Failure where
  | decode (f : DecodeFailure)
  | operandRange
  deriving DecidableEq, Repr

/-- The five clauses of the well-formedness check (10_state.md rule R20, 41_checksum.md rule R80); ALL is their
conjunction. -/
structure WfClauses where
  h : Bool
  l : Bool
  c : Bool
  t : Bool
  deriving DecidableEq, Repr

end Sys2Proof.Machine
end

