-- ==== Sys2Proof/Machine/Flags.lean ====
section
/-! DEFINITION. The bits of RES, WF, FLG and CFG (10_state.md rules R15 to R17, R20 to R22). -/

namespace Sys2Proof.Machine

/-- RES from its fields: OK bit 7, EVT bits 6:5, reserved bits 4:3 zero, FAIL bits 2:0 (R15). -/
def resWord (ok : Bool) (evt : BitVec 2) (fail : BitVec 3) : BitVec 8 :=
  BitVec.ofBool ok ++ evt ++ 0#2 ++ fail

/-- RES.EVT of an event (R16). -/
def DecodedEvent.evt : DecodedEvent → BitVec 2
  | .tagDetected _ _ _ => 1
  | .errorReported _ => 2
  | .unrecognized => 3

/-- RES.FAIL of a failure (R17); 6 is never produced. -/
def Failure.code : Failure → BitVec 3
  | .decode .tooShort => 1
  | .decode .badHeader => 2
  | .decode .incompletePayload => 3
  | .decode .badChecksum => 4
  | .decode .unknownShape => 5
  | .operandRange => 7

/-- RES of a success without an event: OK = 1, EVT = NONE, FAIL = NONE. -/
def resOk : BitVec 8 := resWord true 0 0

/-- RES of a decode that returned an event. -/
def resEvent (e : DecodedEvent) : BitVec 8 := resWord true e.evt 0

/-- RES of a failure: OK = 0, EVT = NONE. -/
def resFail (f : Failure) : BitVec 8 := resWord false 0 f.code

/-- RES.OK (R15). -/
def resOkBit (r : BitVec 8) : Bool := r.getLsbD 7

/-- RES.EVT (R15). -/
def resEvtField (r : BitVec 8) : BitVec 2 := r.extractLsb' 5 2

/-- RES.FAIL (R15). -/
def resFailField (r : BitVec 8) : BitVec 3 := r.extractLsb' 0 3

/-- ALL: H and L and C and T (R20). -/
def WfClauses.all (w : WfClauses) : Bool := w.h && w.l && w.c && w.t

/-- WF from its clauses: bit 0 H, bit 1 L, bit 2 C, bit 3 T, bit 4 ALL, bits 7:5 zero (R20). -/
def WfClauses.word (w : WfClauses) : BitVec 8 :=
  0#3 ++ BitVec.ofBool w.all ++ BitVec.ofBool w.t ++ BitVec.ofBool w.c ++ BitVec.ofBool w.l ++ BitVec.ofBool w.h

/-- FLG with OVF set (R21). -/
def flgSetOvf (flg : BitVec 8) : BitVec 8 := flg ||| 0x01#8

/-- FLG with OVF cleared (R21). -/
def flgClearOvf (flg : BitVec 8) : BitVec 8 := flg &&& 0xFE#8

/-- CFG as SETCFG leaves it: bit 0 of the operand, bits 7:1 zero (R22). -/
def cfgOf (v : Byte) : BitVec 8 := v &&& 0x01#8

/-- CFG.CE (R22). -/
def cfgCe (cfg : BitVec 8) : Bool := cfg.getLsbD 0

/-- CFG right after reset: CE = CE_RESET, bits 7:1 zero (R26). -/
def cfgReset (ce : Bool) : BitVec 8 := BitVec.zeroExtend 8 (BitVec.ofBool ce)

end Sys2Proof.Machine
end

