-- ==== Sys2Proof/Config.lean ====
section
/-! DEFINITION. What one implementation fixes (00_scope.md rules R5, R6) and the free values of the model. -/

namespace Sys2Proof

/-- The implementation parameters. They stand in `Machine.State` as a field no step writes, so that a claim about every
state is a claim about every value of them (rules R5 and R6 ask for exactly that; log 7). -/
structure Config where
  /-- `BUF_CAP`, the capacity of IBUF and of OBUF in bytes (R6, D3: OPEN, constrained to at least 7). -/
  bufCap : Nat
  /-- `TAG_MIN_LEN` (R5, D12). -/
  tagMinLen : Nat
  /-- `CSUM_MIN_SPAN` (R5, D13). -/
  csumMinSpan : Nat
  /-- `CE_RESET`, the value of CFG.CE after reset (R6, D4). -/
  ceReset : Bool
  deriving DecidableEq, Repr

/-- The parameters of `State.reset`: the values of R5 and R6, and for the OPEN `BUF_CAP` the least value at which every
frame the format allows fits, 65542 (DESIGN CHOICE, log 7). -/
def Config.standard : Config := ⟨65542, 11, 4, false⟩

/-- The literals of R5 have the values this hardware takes, and `BUF_CAP` meets the constraint of R6. -/
abbrev Config.IsFcodec (c : Config) : Prop :=
  c.csumMinSpan = 4 ∧ c.tagMinLen = 11 ∧ 7 ≤ c.bufCap

/-- The value a register that 10_state.md rule R26 leaves unspecified holds after a reset event: a FREE VALUE, nothing
constrains it (93_implementation_defined.md U6; log 4). The argument only keeps one such value apart from another. -/
opaque Config.freeByte : Nat → Byte

/-- The two byte buffers (10_state.md rules R13, R14). -/
inductive Buffer where
  | ibuf
  | obuf
  deriving DecidableEq, Repr

/-- The value a byte of a buffer holds that nothing has written since reset: a FREE VALUE, nothing constrains it
(10_state.md rule R26, 93_implementation_defined.md U6; log 5). The arguments are the buffer, the reset meant, and the
byte's index. -/
opaque Config.freeBufferByte : Buffer → Nat → Nat → Byte

end Sys2Proof
end

