-- ==== Sys2Proof/Machine/State.lean ====
section
/-! DEFINITION. The architectural state (10_state.md), its value right after reset (rule R26), and why a step can stop. -/

namespace Sys2Proof.Machine

/-- The bytes of a buffer written since reset: (index, byte) pairs, indexes strictly rising (`Memory.wf`). A byte below
BUF_CAP that is not listed holds the free value `Config.freeBufferByte` (10_state.md rule R26; log 5). -/
abbrev Memory := List Host.Cell

/-- What the host does to the block (60_exceptions.md rule R132, 70_reset_and_hazards.md rule R140): present a command
word, or reset the block between two operations. -/
inductive HostEvent where
  | command (w : CommandWord)
  | reset
  deriving DecidableEq, Repr

/-- Why the machine stops. It is no fault of the hardware (its malformed inputs are failure codes in RES,
60_exceptions.md rule R124): it is the model's own answer to an access 20_memory.md rule R33 rules out, and no step from
a state that meets `State.Inv` reaches it. -/
inductive Fault where
  /-- An index at or above BUF_CAP: no such byte exists (R24). Raised by reading the input sequence when ILEN exceeds
  BUF_CAP and by writing a result longer than OBUF. Safe (log 6). -/
  | bufferIndexOutOfRange
  deriving DecidableEq, Repr

/-- Why the model has no meaning to give. -/
inductive Refusal where
  /-- The instruction has no meaning in the model yet; raised by an arm of `exec` only. Safe. No arm raises it now. -/
  | notModelled (mnemonic : String)
  deriving DecidableEq, Repr

/-- The machine's state: the registers of 10_state.md rule R11, then the model's own three fields. -/
structure State where
  /-- IBUF, the input buffer (R13). -/
  ibuf : Memory
  /-- ILEN, the number of valid bytes in IBUF (R13). -/
  ilen : Nat
  /-- OBUF, the output buffer (R14). -/
  obuf : Memory
  /-- OLEN, the number of valid bytes in OBUF (R14). -/
  olen : Nat
  /-- RES, the result register (R15). -/
  res : BitVec 8
  /-- RSSI (R18). -/
  rssi : BitVec 8
  /-- PCW, the Protocol Control word (R18); no program counter (R12). -/
  pcw : BitVec 16
  /-- ERRCODE (R18). -/
  errcode : BitVec 8
  /-- CSR, the checksum result register (R19). -/
  csr : BitVec 8
  /-- WF, the well-formedness flags (R20). -/
  wf : BitVec 8
  /-- FLG, bit 0 = OVF (R21). -/
  flg : BitVec 8
  /-- CFG, bit 0 = CE (R22). -/
  cfg : BitVec 8
  /-- The implementation parameters (00_scope.md rules R5, R6); no step writes them (log 7). -/
  config : Config
  /-- The host's coming actions, the next one first (log 1): the model's own field. -/
  script : List HostEvent
  /-- How many free values resets have drawn (logs 4, 5). It stands still between resets, so it also names the reset
  whose leftover buffer bytes are meant: the model's own field. -/
  freeCount : Nat
  deriving DecidableEq, Repr

/-- Right after reset (R26, 70_reset_and_hazards.md rule R140). ILEN, OLEN, RES, FLG, CFG and WF bits 7:5 are the
spec's values; 0 in RSSI, PCW, ERRCODE, CSR and WF bits 4:0 is a DESIGN CHOICE, the spec leaves them unspecified (log 3).
Every byte of both buffers
holds its free value (log 5). -/
def State.reset : State where
  ibuf := []
  ilen := 0
  obuf := []
  olen := 0
  res := 0x00
  rssi := 0x00
  pcw := 0x0000
  errcode := 0x00
  csr := 0x00
  wf := 0x00
  flg := 0x00
  cfg := BitVec.zeroExtend 8 (BitVec.ofBool Config.standard.ceReset)
  config := Config.standard
  script := []
  freeCount := 0

end Sys2Proof.Machine
end

