-- ==== Sys2Proof/Machine/Operands.lean ====
section
/-! DEFINITION. Byte sequences and the assembly of fields from them (00_scope.md section 6, 20_memory.md rules R31 to
R36, 30_encoding.md rules R49, R50). Every read carries the proof that its index is in range (R33). -/

namespace Sys2Proof.Machine

/-- `u16be(hi, lo) = hi * 256 + lo`, as an exact natural number (00_scope.md section 6, R31). -/
def u16be (hi lo : Byte) : Nat := hi.toNat * 256 + lo.toNat

/-- `hi8(n)`, bits 15:8 of a 16-bit count (R50). -/
def hi8 (n : Nat) : Byte := BitVec.ofNat 8 (n / 256)

/-- `lo8(n)`, bits 7:0 of a 16-bit count (R50). -/
def lo8 (n : Nat) : Byte := BitVec.ofNat 8 (n % 256)

/-- `sum(s)`, the sum of the bytes as a natural number (00_scope.md section 6). -/
def byteSum (s : List Byte) : Nat := (s.map BitVec.toNat).sum

/-- `s[a..e)`, the half-open slice, defined only for `a <= e <= len(s)` (00_scope.md section 6, R33). -/
def slice (s : List Byte) (a e : Nat) (_ : a ≤ e ∧ e ≤ s.length) : List Byte := (s.take e).drop a

/-- `PL = u16be(b[3], b[4])`, defined when `len(b) >= 5` (R49). -/
def payloadLength (b : List Byte) (_ : 5 ≤ b.length) : Nat := u16be b[3] b[4]

/-- The checksum span: frame type, command, the two length bytes as two separate bytes (R32), payload (R51). -/
def span (t c : Byte) (p : List Byte) : List Byte := [t, c, hi8 p.length, lo8 p.length] ++ p

/-- The span of a frame that was received: the same bytes, with the length field as it stood in the frame. -/
def Frame.span (f : Frame) : List Byte :=
  [f.frameType, f.command, hi8 f.payloadLength.toNat, lo8 f.payloadLength.toNat] ++ f.payload

/-- The bytes of a frame in wire order (R45). -/
def Frame.toBytes (f : Frame) : List Byte := [f.header] ++ f.span ++ [f.checksum, f.terminator]

/-- The frame at index 0 of a byte sequence, with every field where R35 and R49 put it: the bounds-checked accessor that
fails closed (R33). None where the sequence is shorter than 7 bytes or than `5 + PL + 2` (exact, R36); bytes after index
`6 + PL` are ignored (R37). No field is judged here. -/
def frameAt (b : List Byte) : Option Frame :=
  if h : 7 ≤ b.length then
    if hc : 5 + payloadLength b (by omega) + 2 ≤ b.length then
      some
        { header := b[0]
          frameType := b[1]
          command := b[2]
          payloadLength := BitVec.ofNat 16 (payloadLength b (by omega))
          payload := slice b 5 (5 + payloadLength b (by omega)) (by omega)
          checksum := b[5 + payloadLength b (by omega)]
          terminator := b[6 + payloadLength b (by omega)] }
    else none
  else none

end Sys2Proof.Machine
end

