-- ==== Sys2Proof/Machine/Units.lean ====
section
/-! DEFINITION. The functional units (00_scope.md rule R7): csum, enc, verify, wf, dec_ref, dec, pext, as pure functions
of byte sequences. Each takes the implementation parameters of 00_scope.md rule R5. -/

namespace Sys2Proof.Machine

/-! ## csum, verify, wf (41_checksum.md) -/

/-- `csum(s)` (R73): 0 below `CSUM_MIN_SPAN` bytes, else the sum modulo 256. -/
def csum (cfg : Config) (s : List Byte) : Byte :=
  if s.length < cfg.csumMinSpan then 0x00 else BitVec.ofNat 8 (byteSum s)

/-- `rx_csum(b)` (R76): the checksum computed over the received span, none where the frame is not complete. -/
def rxCsum (cfg : Config) (b : List Byte) : Option Byte := (frameAt b).map fun f => csum cfg f.span

/-- `verify(b)` (R76): neither header nor terminator, frame type nor command is looked at. -/
def verify (cfg : Config) (b : List Byte) : Except DecodeFailure Byte :=
  if b.length < 7 then .error .tooShort
  else match frameAt b with
    | none => .error .incompletePayload
    | some f => if f.checksum ≠ csum cfg f.span then .error .badChecksum else .ok (csum cfg f.span)

/-- `wf(b)` (R80): a clause that cannot be evaluated is false. -/
def wfClauses (cfg : Config) (b : List Byte) : WfClauses where
  h := b.head? == some header
  l := (frameAt b).isSome
  c := (frameAt b).any fun f => f.checksum == csum cfg f.span
  t := (frameAt b).any fun f => f.terminator == terminator

/-! ## enc (40_encoder.md) -/

/-- The checksum byte `k` of `enc(t, c, p)` (R65). -/
def encChecksum (cfg : Config) (t c : Byte) (p : List Byte) : Byte := csum cfg (span t c p)

/-- `enc(t, c, p)` (R65), for a payload of at most 65535 bytes: the spec defines it for no other, and no operation
calls it with one (R66). -/
def enc (cfg : Config) (t c : Byte) (p : List Byte) : List Byte :=
  [header] ++ span t c p ++ [encChecksum cfg t c p, terminator]

/-! ## pext (43_payload.md) -/

/-- `pext(b)` (R105). -/
def pext (b : List Byte) : Except DecodeFailure (List Byte) :=
  if b.length < 7 then .error .tooShort
  else if b.head? ≠ some header then .error .badHeader
  else match frameAt b with
    | none => .error .incompletePayload
    | some f => .ok f.payload

/-! ## dec_ref and dec (42_decoder.md) -/

/-- A path of the decoder: what it returns for a sequence that has passed the length floor (R86). -/
abbrev DecodePath := (b : List Byte) → 7 ≤ b.length → Except DecodeFailure DecodedEvent

/-- Step 2's exit (R87, shape map row 1). -/
def badHeaderPath : DecodePath := fun _ _ => .error .badHeader

/-- Step 3a (R88): the code is byte 5, whatever the length field says (90_conflicts.md C2). -/
def errorReportPath : DecodePath := fun b _ => .ok (.errorReported b[5])

/-- Step 3b (R88). -/
def otherResponsePath : DecodePath := fun _ _ => .ok .unrecognized

/-- Steps 4a to 4h (R89). `PL - 3` is taken only where `PL >= 3` (R36, U3). -/
def tagPath (cfg : Config) : DecodePath := fun b h7 =>
  if b.length < cfg.tagMinLen then .error .incompletePayload
  else if hc : b.length < 5 + payloadLength b (by omega) + 2 then .error .incompletePayload
  else if h3 : payloadLength b (by omega) < 3 then .error .incompletePayload
  else
    .ok (.tagDetected b[5] (BitVec.ofNat 16 (u16be b[6] b[7]))
      (slice b 8 (8 + (payloadLength b (by omega) - 3)) (by omega)))

/-- Step 5 (R90). -/
def unknownShapePath : DecodePath := fun _ _ => .error .unknownShape

/-- Steps 2 to 5 (R85): the path the first three bytes select, first match (R52). -/
def shapePath (cfg : Config) : DecodePath := fun b h7 =>
  if b[0] ≠ header then badHeaderPath b h7
  else if b[1] = typeResponse then
    if b[2] = cmdError then errorReportPath b h7 else otherResponsePath b h7
  else if b[1] = typeNotification ∧ b[2] = cmdInventory then tagPath cfg b h7
  else unknownShapePath b h7

/-- Step 1 (R86) before a path: fewer than 7 bytes are `TooShort` whatever they are. -/
def afterFloor (path : DecodePath) (b : List Byte) : Except DecodeFailure DecodedEvent :=
  if h : b.length < 7 then .error .tooShort else path b (by omega)

/-- `dec_ref(b)` (R85). -/
def decRef (cfg : Config) (b : List Byte) : Except DecodeFailure DecodedEvent := afterFloor (shapePath cfg) b

/-- The checksum gate (R91): a failure stands as it is; with `ce` set, an event stands only if `verify` passes. -/
def gate (cfg : Config) (ce : Bool) (b : List Byte) (r : Except DecodeFailure DecodedEvent) :
    Except DecodeFailure DecodedEvent :=
  match r with
  | .error f => .error f
  | .ok e =>
    if ce then
      match verify cfg b with
      | .error f => .error f
      | .ok _ => .ok e
    else .ok e

/-- `dec(b, ce)` (R91). -/
def dec (cfg : Config) (ce : Bool) (b : List Byte) : Except DecodeFailure DecodedEvent := gate cfg ce b (decRef cfg b)

end Sys2Proof.Machine
end

