-- ==== Sys2Proof/Machine/Ops.lean ====
section
/-! DEFINITION. The named operations over the buffers and the registers. -/

namespace Sys2Proof.Machine

/-- The answer of a step. -/
abbrev Answer := Host.Outcome State Fault Refusal

/-! ## Buffers (20_memory.md) -/

/-- The canonical form: indexes strictly rising. The list is the bytes written since reset, and an unlisted index reads as
not written, so no entry repeats what an unlisted index reads as. -/
def Memory.wf : Memory → Bool
  | [] => true
  | [_] => true
  | x :: y :: m => decide (x.1 < y.1) && Memory.wf (y :: m)

/-- The byte written at an index since reset, none where none was. -/
def Memory.read : Memory → Nat → Option Byte
  | [], _ => none
  | (k, v) :: m, i => if i = k then some v else Memory.read m i

/-- One byte written; every other index as it was. -/
def Memory.write : Memory → Nat → Byte → Memory
  | [], i, x => [(i, x)]
  | (k, v) :: m, i, x =>
    if i < k then (i, x) :: (k, v) :: m
    else if i = k then (i, x) :: m
    else (k, v) :: Memory.write m i x

/-- The bytes `xs` written at indexes `i`, `i + 1`, ... -/
def Memory.writeSeq (m : Memory) (i : Nat) : List Byte → Memory
  | [] => m
  | x :: xs => Memory.writeSeq (Memory.write m i x) (i + 1) xs

/-- One byte of a buffer of capacity `cap` (R24, R33): the byte written last, or what the buffer held unwritten. -/
def bufferByte (cap : Nat) (unwritten : Nat → Byte) (m : Memory) (i : Nat) : Except Fault Byte :=
  if i < cap then .ok ((Memory.read m i).getD (unwritten i)) else .error .bufferIndexOutOfRange

/-- The `n` bytes of a buffer from index `i` on, in index order (R30). -/
def bufferSeq (cap : Nat) (unwritten : Nat → Byte) (m : Memory) (i : Nat) : Nat → Except Fault (List Byte)
  | 0 => .ok []
  | n + 1 =>
    match bufferByte cap unwritten m i with
    | .error f => .error f
    | .ok x =>
      match bufferSeq cap unwritten m (i + 1) n with
      | .error f => .error f
      | .ok xs => .ok (x :: xs)

/-- What a byte of a buffer holds that nothing has written since reset (10_state.md rule R26). -/
def State.unwritten (s : State) (b : Buffer) (i : Nat) : Byte := Config.freeBufferByte b s.freeCount i

/-- `IBUF[i]`, a value at every index below BUF_CAP (10_state.md rules R11, R13). -/
def State.ibufByte (s : State) (i : Nat) : Except Fault Byte := bufferByte s.config.bufCap (s.unwritten .ibuf) s.ibuf i

/-- `OBUF[i]`, a value at every index below BUF_CAP (10_state.md rules R11, R14). -/
def State.obufByte (s : State) (i : Nat) : Except Fault Byte := bufferByte s.config.bufCap (s.unwritten .obuf) s.obuf i

/-- The input byte sequence `IBUF[0..ILEN)` (10_state.md rule R13). -/
def State.input (s : State) : Except Fault (List Byte) :=
  bufferSeq s.config.bufCap (s.unwritten .ibuf) s.ibuf 0 s.ilen

/-- The output byte sequence `OBUF[0..OLEN)` (10_state.md rule R14). -/
def State.output (s : State) : Except Fault (List Byte) :=
  bufferSeq s.config.bufCap (s.unwritten .obuf) s.obuf 0 s.olen

/-- CFG.CE (10_state.md rule R22). -/
def State.ce (s : State) : Bool := cfgCe s.cfg

/-! ## Register writes, one home for each -/

/-- `RES <- r` (R15). -/
def State.setRes (s : State) (r : BitVec 8) : State := { s with res := r }

/-- `CSR <- k` (R19). -/
def State.setCsr (s : State) (k : Byte) : State := { s with csr := k }

/-- `WF <- w` (R20). -/
def State.setWf (s : State) (w : BitVec 8) : State := { s with wf := w }

/-- `RSSI <- rssi`, `PCW <- pc` (R18). -/
def State.setTag (s : State) (rssi : Byte) (pc : BitVec 16) : State := { s with rssi := rssi, pcw := pc }

/-- `ERRCODE <- code` (R18). -/
def State.setErrcode (s : State) (code : Byte) : State := { s with errcode := code }

/-- `FLG <- f` (R21). -/
def State.setFlg (s : State) (f : BitVec 8) : State := { s with flg := f }

/-- `CFG <- c` (R22). -/
def State.setCfg (s : State) (c : BitVec 8) : State := { s with cfg := c }

/-- `ILEN <- n`; the bytes of IBUF are not touched (R110). -/
def State.setIlen (s : State) (n : Nat) : State := { s with ilen := n }

/-- `IBUF[ILEN] <- x`, `ILEN <- ILEN + 1` (R111). -/
def State.pushInput (s : State) (x : Byte) : State :=
  { s with ibuf := Memory.write s.ibuf s.ilen x, ilen := s.ilen + 1 }

/-- `OBUF[0..len(bs)) <- bs`, `OLEN <- len(bs)` (R14). Bytes of OBUF after `bs` stay (93_implementation_defined.md U6,
log 12). -/
def State.setOutput (s : State) (bs : List Byte) : State :=
  { s with obuf := Memory.writeSeq s.obuf 0 bs, olen := bs.length }

/-- The host's script without the action just taken. -/
def State.setScript (s : State) (es : List HostEvent) : State := { s with script := es }

/-! ## Shared operations of the instructions -/

/-- An operation over the input byte sequence. -/
def State.withInput (s : State) (k : List Byte → Answer) : Answer :=
  match s.input with
  | .error f => .fault f
  | .ok b => k b

/-- A byte-sequence result into OBUF, then what follows; no byte of OBUF exists at BUF_CAP or above (R24). -/
def State.withOutput (s : State) (bs : List Byte) (k : State → Answer) : Answer :=
  if bs.length ≤ s.config.bufCap then k (s.setOutput bs) else .fault .bufferIndexOutOfRange

/-- A success without an event: RES = 0x80. -/
def State.succeed (s : State) : Answer := .next (s.setRes resOk)

/-- A failure is a result, not a trap (60_exceptions.md rule R124): RES gets the code, no control transfer, nothing
saved, no other register changes. This is the block's whole exception mechanism, in one place. -/
def State.fail (s : State) (f : Failure) : Answer := .next (s.setRes (resFail f))

/-- The registers an event or a failure of the decoder is delivered in (42_decoder.md rule R92). -/
def State.deliver (s : State) : Except DecodeFailure DecodedEvent → Answer
  | .ok (.tagDetected rssi pc epc) =>
    s.withOutput epc fun t => .next ((t.setTag rssi pc).setRes (resEvent (.tagDetected rssi pc epc)))
  | .ok (.errorReported code) => .next ((s.setErrcode code).setRes (resEvent (.errorReported code)))
  | .ok .unrecognized => .next (s.setRes (resEvent .unrecognized))
  | .error f => s.fail (.decode f)

/-- The decoder by one path: length floor, path, checksum gate, delivery (R86, R91, R92). DEC takes the path the shape
map selects; a frame row is one path of that map (30_encoding.md rule R52). -/
def State.decodeBy (s : State) (path : DecodePath) : Answer :=
  s.withInput fun b => s.deliver (gate s.config s.ce b (afterFloor path b))

/-- Nothing changes: the hardware rule of a reserved operation code (R59, R113; log 8). -/
def State.unchanged (s : State) : Answer := .next s

/-! ## Reset between operations (70_reset_and_hazards.md rules R140, R141) -/

/-- The reset event. The registers 10_state.md rule R26 gives a value get it; RSSI, PCW, ERRCODE, CSR and WF bits 4:0
get free values, and so does every byte of both buffers: nothing is written any more, and the advanced counter makes
the free bytes new ones (U6, logs 4 and 5). -/
def State.resetEvent (s : State) : State :=
  { ibuf := []
    ilen := 0
    obuf := []
    olen := 0
    res := 0x00
    rssi := Config.freeByte s.freeCount
    pcw := Config.freeByte (s.freeCount + 1) ++ Config.freeByte (s.freeCount + 2)
    errcode := Config.freeByte (s.freeCount + 3)
    csr := Config.freeByte (s.freeCount + 4)
    wf := Config.freeByte (s.freeCount + 5) &&& 0x1F#8
    flg := 0x00
    cfg := cfgReset s.config.ceReset
    config := s.config
    script := s.script
    freeCount := s.freeCount + 6 }

/-! ## What the host presents next -/

/-- The host's next action and the state from which it is performed, none where the host does nothing (10_state.md
rule R12: the block fetches nothing, the host presents one operation at a time). -/
def State.nextEvent (s : State) : Option (HostEvent × State) :=
  match s.script with
  | [] => none
  | e :: es => some (e, s.setScript es)

/-- A whole input sequence put into IBUF, as LOAD leaves it (30_encoding.md rule R61). -/
def State.placeInput (s : State) (bs : List Byte) : State :=
  { s with ibuf := Memory.writeSeq s.ibuf 0 bs, ilen := bs.length }

/-- A command word put where the next step takes it. -/
def State.placeCommand (s : State) (w : CommandWord) : State := s.setScript (.command w :: s.script)

/-- An encoding put where the next step runs it. A command word goes to the head of the script. A frame row runs when
DEC is issued on an input that starts with its three bytes (R52), so those bytes and four zero bytes, the shortest frame
length the length test passes, become the input and DEC the next command (log 11). -/
def State.placeEncoding (s : State) : Encoding → State
  | .command w => s.placeCommand w
  | .frame h t c => (s.placeInput [h, t, c, 0, 0, 0, 0]).placeCommand (commandWord 0x9 0 0)

end Sys2Proof.Machine
end

