-- ==== Sys2Proof/Machine/Checksum.lean ====
section
/-! DEFINITION. CSUM, VERIFY and WFCHK (41_checksum.md). -/

namespace Sys2Proof.Machine

/-- `CSR <- k` where the span exists, unchanged where it does not (10_state.md rule R19). -/
def State.setCsrIf (s : State) : Option Byte → State
  | some k => s.setCsr k
  | none => s

/-- CSUM (R75): the whole input is the span. -/
def execCsum (s : State) : Answer := s.withInput fun b => (s.setCsr (csum s.config b)).succeed

/-- VERIFY (R77): CSR gets the computed checksum where the span exists, on `BadChecksum` too. -/
def execVerify (s : State) : Answer :=
  s.withInput fun b =>
    match verify s.config b with
    | .ok _ => (s.setCsrIf (rxCsum s.config b)).succeed
    | .error f => (s.setCsrIf (rxCsum s.config b)).fail (.decode f)

/-- WFCHK (R81): the verdict is in WF; RES says only that the check was made. -/
def execWfchk (s : State) : Answer :=
  s.withInput fun b => ((s.setWf (wfClauses s.config b).word).setCsrIf (rxCsum s.config b)).succeed

end Sys2Proof.Machine
end

