-- ==== Sys2Proof/Machine/Control.lean ====
section
/-! DEFINITION. CLR, PUSH, SETCFG and the reserved operation codes (44_control.md). -/

namespace Sys2Proof.Machine

/-- CLR (R110). -/
def execClr (s : State) : Answer := .next ((s.setIlen 0).setFlg (flgClearOvf s.flg))

/-- PUSH x (R111): a full buffer drops the byte and sets the sticky OVF. -/
def execPush (x : Byte) (s : State) : Answer :=
  if s.ilen < s.config.bufCap then .next (s.pushInput x) else .next (s.setFlg (flgSetOvf s.flg))

/-- SETCFG v (R112): bits 7:1 of v are ignored and CFG bits 7:1 stay 0. -/
def execSetcfg (v : Byte) (s : State) : Answer := .next (s.setCfg (cfgOf v))

/-- Reserved code 0x0 (R113). -/
def execReserved0 (s : State) : Answer := s.unchanged

/-- Reserved code 0xB (R113). -/
def execReservedB (s : State) : Answer := s.unchanged

/-- Reserved code 0xC (R113). -/
def execReservedC (s : State) : Answer := s.unchanged

/-- Reserved code 0xD (R113). -/
def execReservedD (s : State) : Answer := s.unchanged

/-- Reserved code 0xE (R113). -/
def execReservedE (s : State) : Answer := s.unchanged

/-- Reserved code 0xF (R113). -/
def execReservedF (s : State) : Answer := s.unchanged

end Sys2Proof.Machine
end

