-- ==== Sys2Proof/Machine/Decoder.lean ====
section
/-! DEFINITION. DEC (42_decoder.md rule R92) and the six rows of the shape map (30_encoding.md rule R52). -/

namespace Sys2Proof.Machine

/-- DEC (R92): the path is the one the input's first three bytes select. -/
def execDec (s : State) : Answer := s.decodeBy (shapePath s.config)

/-- FRAME.RSP.ERR (R52 row 2, R88): the decoder's path for an input that starts BB 01 FF. A row's own three bytes are
its operands and are not read again (log 9), here and in the five rows below. -/
def execFrameRspErr (s : State) : Answer := s.decodeBy errorReportPath

/-- FRAME.RSP.OTHER (R52 row 3, R88). -/
def execFrameRspOther (_c : Byte) (s : State) : Answer := s.decodeBy otherResponsePath

/-- FRAME.NTF.TAG (R52 row 4, R89). -/
def execFrameNtfTag (s : State) : Answer := s.decodeBy (tagPath s.config)

/-- FRAME.CMD.INV (R52 row 5, R90): the block's own inventory command is a shape the decoder does not recognise. -/
def execFrameCmdInv (s : State) : Answer := s.decodeBy unknownShapePath

/-- FRAME.OTHER (R52 row 5, R90). -/
def execFrameOther (_t _c : Byte) (s : State) : Answer := s.decodeBy unknownShapePath

/-- FRAME.NOHEADER (R52 row 1, R87). -/
def execFrameNoHeader (_h _t _c : Byte) (s : State) : Answer := s.decodeBy badHeaderPath

end Sys2Proof.Machine
end

