-- ==== Sys2Proof/Machine/Encoder.lean ====
section
/-! DEFINITION. ENC and ENC.INV (40_encoder.md). -/

namespace Sys2Proof.Machine

/-- A built frame delivered: OBUF, OLEN, CSR = its checksum byte, RES = 0x80 (R66, R67). -/
def State.deliverFrame (s : State) (t c : Byte) (p : List Byte) : Answer :=
  s.withOutput (enc s.config t c p) fun u => (u.setCsr (encChecksum s.config t c p)).succeed

/-- ENC t, c (R66): `OperandRange` where the payload does not fit the length field or the frame does not fit OBUF. -/
def execEnc (t c : Byte) (s : State) : Answer :=
  if s.ilen > plMax ∨ s.ilen + 7 > s.config.bufCap then s.fail .operandRange
  else s.withInput fun p => s.deliverFrame t c p

/-- ENC.INV (R67): the frame of type command, command inventory, no payload; IBUF is not read. -/
def execEncInv (s : State) : Answer := s.deliverFrame typeCommand cmdInventory []

end Sys2Proof.Machine
end

