-- ==== Sys2Proof/Machine/Extractor.lean ====
section
/-! DEFINITION. PEXT (43_payload.md). -/

namespace Sys2Proof.Machine

/-- PEXT (R106). -/
def execPext (s : State) : Answer :=
  s.withInput fun b =>
    match pext b with
    | .ok p => s.withOutput p fun u => u.succeed
    | .error f => s.fail (.decode f)

end Sys2Proof.Machine
end

