-- ==== Sys2Proof/Machine/Dispatch.lean ====
section
/-! DEFINITION. One arm per row of the opcode table. -/

namespace Sys2Proof.Machine

def exec (i : Instr) (s : State) : Host.Outcome State Fault Refusal :=
  match i with
  | .clr => Sys2Proof.Machine.execClr s
  | .push x => Sys2Proof.Machine.execPush x s
  | .enc t c => Sys2Proof.Machine.execEnc t c s
  | .encInv => Sys2Proof.Machine.execEncInv s
  | .csum => Sys2Proof.Machine.execCsum s
  | .verify => Sys2Proof.Machine.execVerify s
  | .wfchk => Sys2Proof.Machine.execWfchk s
  | .pext => Sys2Proof.Machine.execPext s
  | .dec => Sys2Proof.Machine.execDec s
  | .setcfg v => Sys2Proof.Machine.execSetcfg v s
  | .reserved0 => Sys2Proof.Machine.execReserved0 s
  | .reservedB => Sys2Proof.Machine.execReservedB s
  | .reservedC => Sys2Proof.Machine.execReservedC s
  | .reservedD => Sys2Proof.Machine.execReservedD s
  | .reservedE => Sys2Proof.Machine.execReservedE s
  | .reservedF => Sys2Proof.Machine.execReservedF s
  | .frameRspErr => Sys2Proof.Machine.execFrameRspErr s
  | .frameRspOther c => Sys2Proof.Machine.execFrameRspOther c s
  | .frameNtfTag => Sys2Proof.Machine.execFrameNtfTag s
  | .frameCmdInv => Sys2Proof.Machine.execFrameCmdInv s
  | .frameOther t c => Sys2Proof.Machine.execFrameOther t c s
  | .frameNoHeader h t c => Sys2Proof.Machine.execFrameNoHeader h t c s

end Sys2Proof.Machine
end

