-- ==== Sys2Proof/Machine/Step.lean ====
section
/-! DEFINITION. One step: the host's next action (20_memory.md rule R38: one operation at a time, to completion). -/

namespace Sys2Proof.Machine

/-- A command word is decoded and performed; a reset acts between operations (R141); with nothing presented the
registers are stable (R41). -/
def step (s : State) : Host.Outcome State Fault Refusal :=
  match s.nextEvent with
  | none => .next s
  | some (.reset, t) => .next t.resetEvent
  | some (.command w, t) => exec (decodeCommand w) t

/-- The state with one encoding of the opcode table placed where the very next step runs it. -/
def State.withFetchWord (s : State) (nbits w : Nat) : State :=
  match tableEncoding nbits w with
  | some e => s.placeEncoding e
  | none => s

end Sys2Proof.Machine
end

