-- ==== Sys2Proof/Machine/HostSide.lean ====
section
/-! DEFINITION. The host's side of the block: what it may read (10_state.md rule R11) and its pseudo-operations
(30_encoding.md rule R61). -/

namespace Sys2Proof.Machine

/-- What the result port shows: every register of rule R11 but IBUF, which is not readable. -/
inductive HostReg where
  | ilen
  | olen
  | obuf (i : Nat)
  | res
  | rssi
  | pcw
  | errcode
  | csr
  | wf
  | flg
  | cfg
  deriving DecidableEq, Repr

/-- A host read. It changes nothing (20_memory.md rules R41, R43). Every byte of `OBUF[0..BUF_CAP)` is readable (R11),
those at OLEN and above too: an older result's byte, or a free value (10_state.md rule R14,
93_implementation_defined.md U6; logs 5, 12). An index at or above BUF_CAP is no byte, and the read gives none (log 6). -/
def State.hostRead (s : State) : HostReg → Option Nat
  | .ilen => some s.ilen
  | .olen => some s.olen
  | .obuf i => (s.obufByte i).toOption.map BitVec.toNat
  | .res => some s.res.toNat
  | .rssi => some s.rssi.toNat
  | .pcw => some s.pcw.toNat
  | .errcode => some s.errcode.toNat
  | .csr => some s.csr.toNat
  | .wf => some s.wf.toNat
  | .flg => some s.flg.toNat
  | .cfg => some s.cfg.toNat

/-- `PUSHS b0 ... bk` (R61). -/
def pushsOps (bs : List Byte) : List HostEvent := bs.map fun x => .command (commandWord 0x2 x 0)

/-- `LOAD b0 ... bk` (R61): CLR, then PUSHS. -/
def loadOps (bs : List Byte) : List HostEvent := .command (commandWord 0x1 0 0) :: pushsOps bs

/-- `LOOPBACK` (R61): the LOAD of exactly the bytes the host reads from `OBUF[0..OLEN)`. -/
def loopbackOps (s : State) : Except Fault (List HostEvent) := s.output.map loadOps

end Sys2Proof.Machine
end

