-- ==== Sys2Proof/Safety.lean ====
section
/-! DEFINITION. What a good state and a safe run are, and the words claims use about a byte sequence. -/

namespace Sys2Proof

/-- The operations that write RES (10_state.md rule R15): ENC, ENC.INV, CSUM, VERIFY, WFCHK, PEXT, DEC, and the rows of
the shape map, each of which is DEC on one shape. -/
def Instr.computes : Instr → Bool
  | .enc _ _ | .encInv | .csum | .verify | .wfchk | .pext | .dec => true
  | .frameRspErr | .frameRspOther _ | .frameNtfTag | .frameCmdInv | .frameOther _ _ | .frameNoHeader _ _ _ => true
  | .clr | .push _ | .setcfg _ => false
  | .reserved0 | .reservedB | .reservedC | .reservedD | .reservedE | .reservedF => false

/-- DEC, or a row of the shape map. -/
def Instr.decodes : Instr → Bool
  | .dec => true
  | .frameRspErr | .frameRspOther _ | .frameNtfTag | .frameCmdInv | .frameOther _ _ | .frameNoHeader _ _ _ => true
  | .enc _ _ | .encInv | .csum | .verify | .wfchk | .pext | .clr | .push _ | .setcfg _ => false
  | .reserved0 | .reservedB | .reservedC | .reservedD | .reservedE | .reservedF => false

/-- A reserved operation code (30_encoding.md rule R59). -/
def Instr.isReserved : Instr → Bool
  | .reserved0 | .reservedB | .reservedC | .reservedD | .reservedE | .reservedF => true
  | .enc _ _ | .encInv | .csum | .verify | .wfchk | .pext | .dec | .clr | .push _ | .setcfg _ => false
  | .frameRspErr | .frameRspOther _ | .frameNtfTag | .frameCmdInv | .frameOther _ _ | .frameNoHeader _ _ _ => false

end Sys2Proof

namespace Sys2Proof.Machine

/-- Every index below `n` is listed in the buffer, and no index at or above `cap` is. -/
abbrev Memory.Holds (m : Memory) (n cap : Nat) : Prop :=
  (∀ i, i < n → (Memory.read m i).isSome = true) ∧ (∀ x ∈ m, x.1 < cap)

/-- The values RES can hold (10_state.md rules R15 to R17): bits 4:3 are 0, OK = 1 has FAIL = 0, OK = 0 has EVT = 0, and
FAIL = 6 is never produced. -/
abbrev ResLegal (r : BitVec 8) : Prop :=
  r.extractLsb' 3 2 = 0#2 ∧ (resOkBit r = true → resFailField r = 0#3) ∧
  (resOkBit r = false → resEvtField r = 0#2) ∧ resFailField r ≠ 6#3

/-- The invariant of the machine: BUF_CAP meets its constraint (R6), ILEN and OLEN are at most BUF_CAP (R13, R14), both
buffers are in canonical form and hold every byte below their lengths and none outside the buffer (R24), and every
reserved bit reads 0 (R15, R20, R21, R22). -/
abbrev State.Inv (s : State) : Prop :=
  7 ≤ s.config.bufCap ∧ s.ilen ≤ s.config.bufCap ∧ s.olen ≤ s.config.bufCap ∧
  Memory.wf s.ibuf = true ∧ Memory.wf s.obuf = true ∧
  Memory.Holds s.ibuf s.ilen s.config.bufCap ∧ Memory.Holds s.obuf s.olen s.config.bufCap ∧
  ResLegal s.res ∧ s.wf.extractLsb' 5 3 = 0#3 ∧ s.flg.extractLsb' 1 7 = 0#7 ∧ s.cfg.extractLsb' 1 7 = 0#7

/-- A host action a safe run may hold: no reserved operation code, on whose being harmless no claim about a run is to
rest (93_implementation_defined.md U5, log 8). -/
def HostEvent.safe : HostEvent → Bool
  | .command w => !Instr.isReserved (decodeCommand w)
  | .reset => true

/-- A safe run: the state is good and every action still to come is safe. -/
abbrev State.Safe (s : State) : Prop := s.Inv ∧ s.script.all HostEvent.safe = true

/-! ## Words of the claims, independent of the model's own units -/

/-- The byte at an index; claims use it only below the length. -/
def byteAt (b : List Byte) (i : Nat) : Byte := b.getD i 0x00#8

/-- The length field, bytes 3 and 4 big-endian (30_encoding.md rule R49). -/
def lenField (b : List Byte) : Nat := 256 * (byteAt b 3).toNat + (byteAt b 4).toNat

/-- The frame at index 0 is all there: `complete(b)` (41_checksum.md rule R76). -/
abbrev Complete (b : List Byte) : Prop := 7 ≤ b.length ∧ 5 + lenField b + 2 ≤ b.length

/-- The sum of bytes modulo 256 (41_checksum.md rule R74). -/
def sum256 (b : List Byte) : Byte := BitVec.ofNat 8 (b.map BitVec.toNat).sum

/-- The sum over the received span, bytes 1 to `4 + PL` (30_encoding.md rule R51). -/
def spanSum (b : List Byte) : Byte := sum256 ((b.drop 1).take (4 + lenField b))

/-- The checksum byte of the frame, at index `5 + PL` (20_memory.md rule R35). -/
def checksumByte (b : List Byte) : Byte := byteAt b (5 + lenField b)

/-- The first three bytes are these. -/
abbrev StartsWith (b : List Byte) (h t c : Byte) : Prop := b.take 3 = [h, t, c]

/-- The frame `enc(t, c, p)` written out (30_encoding.md rule R50). -/
def encodedFrame (t c : Byte) (p : List Byte) : List Byte :=
  [0xBB#8, t, c, BitVec.ofNat 8 (p.length / 256), BitVec.ofNat 8 (p.length % 256)] ++ p ++
    [BitVec.ofNat 8 (t.toNat + c.toNat + p.length / 256 + p.length % 256 + (p.map BitVec.toNat).sum), 0x7E#8]

end Sys2Proof.Machine
end

