-- ==== Sys2Proof/Certificates/Slice0/Obligations.lean ====
section
/-! DEFINITION. The statements for the provers. The words they use beside the model's own (byteAt, lenField, Complete,
sum256, spanSum, checksumByte, StartsWith, encodedFrame, Inv) are defined in Sys2Proof/Safety.lean. -/

open Sys2Proof Sys2Proof.Machine

/-! ## Encodings -/

/-- 30_encoding.md rules R52, R57, R58: no bit of an encoding is dropped. -/
def Obligations.EncodedInstructionsDecodeToThemselves : Prop :=
  ∀ i : Instr, i.wellFormed = true → decode (encode i) = i

/-- 30_encoding.md rules R52, R57: whatever is decoded is well-formed, and a frame row keeps all three bytes. -/
def Obligations.DecodedInstructionsAreWellFormed : Prop :=
  (∀ w : CommandWord, (decodeCommand w).wellFormed = true) ∧
  ∀ h t c : Byte, (frameRow h t c).wellFormed = true ∧ encode (frameRow h t c) = .frame h t c

/-- 30_encoding.md rules R57, R58: bits 19:16 select, PUSH and SETCFG read `a` at 15:8, ENC reads `a` and `b` at 7:0, and
no other operation reads either field. -/
def Obligations.OperationCodesSelectTheOperations : Prop :=
  ∀ w : BitVec 20,
    (w.extractLsb' 16 4 = 0x1#4 → decodeCommand w = .clr) ∧
    (w.extractLsb' 16 4 = 0x2#4 → decodeCommand w = .push (w.extractLsb' 8 8)) ∧
    (w.extractLsb' 16 4 = 0x3#4 → decodeCommand w = .enc (w.extractLsb' 8 8) (w.extractLsb' 0 8)) ∧
    (w.extractLsb' 16 4 = 0x4#4 → decodeCommand w = .encInv) ∧
    (w.extractLsb' 16 4 = 0x5#4 → decodeCommand w = .csum) ∧
    (w.extractLsb' 16 4 = 0x6#4 → decodeCommand w = .verify) ∧
    (w.extractLsb' 16 4 = 0x7#4 → decodeCommand w = .wfchk) ∧
    (w.extractLsb' 16 4 = 0x8#4 → decodeCommand w = .pext) ∧
    (w.extractLsb' 16 4 = 0x9#4 → decodeCommand w = .dec) ∧
    (w.extractLsb' 16 4 = 0xA#4 → decodeCommand w = .setcfg (w.extractLsb' 8 8)) ∧
    (w.extractLsb' 16 4 = 0x0#4 → decodeCommand w = .reserved0) ∧
    (w.extractLsb' 16 4 = 0xB#4 → decodeCommand w = .reservedB) ∧
    (w.extractLsb' 16 4 = 0xC#4 → decodeCommand w = .reservedC) ∧
    (w.extractLsb' 16 4 = 0xD#4 → decodeCommand w = .reservedD) ∧
    (w.extractLsb' 16 4 = 0xE#4 → decodeCommand w = .reservedE) ∧
    (w.extractLsb' 16 4 = 0xF#4 → decodeCommand w = .reservedF)

/-- Words of 30_encoding.md rule R60 and 95_test_vectors.md, and the keys of the frame rows of rule R52. -/
def Obligations.WordsOfTheSpecDecode : Prop :=
  decodeCommand 0x10000#20 = .clr ∧ decodeCommand 0x2BB00#20 = .push 0xBB ∧
  decodeCommand 0x30222#20 = .enc 0x02 0x22 ∧ decodeCommand 0x301FF#20 = .enc 0x01 0xFF ∧
  decodeCommand 0x40000#20 = .encInv ∧ decodeCommand 0x50000#20 = .csum ∧ decodeCommand 0x60000#20 = .verify ∧
  decodeCommand 0x70000#20 = .wfchk ∧ decodeCommand 0x80000#20 = .pext ∧ decodeCommand 0x90000#20 = .dec ∧
  decodeCommand 0x9ABCD#20 = .dec ∧ decodeCommand 0xAFE00#20 = .setcfg 0xFE ∧
  decodeCommand 0x00000#20 = .reserved0 ∧ decodeCommand 0xF1234#20 = .reservedF ∧
  frameRow 0xBB 0x01 0xFF = .frameRspErr ∧ frameRow 0xBB 0x02 0x22 = .frameNtfTag ∧
  frameRow 0xBB 0x00 0x22 = .frameCmdInv ∧ frameRow 0xAA 0x01 0xFF = .frameNoHeader 0xAA 0x01 0xFF

/-! ## Steps -/

/-- 20_memory.md rule R38, 10_state.md rule R12, 30_encoding.md rule R57: a step performs the operation presented, on the
state the one before it left. That what is presented is a list in the state is the model's choice (log 1); that a step with
nothing presented is one that changes nothing is its inference from 20_memory.md rule R41 (log 2). -/
def Obligations.StepRunsThePresentedCommand : Prop :=
  (∀ (s : State) (i : Instr) (w : CommandWord) (es : List HostEvent),
    decodeCommand w = i → s.script = .command w :: es → step s = exec i { s with script := es }) ∧
  ∀ s : State, s.script = [] → step s = .next s

/-- 30_encoding.md rule R52: DEC does what the row says that its input's first three bytes select. -/
def Obligations.DecRunsTheRowOfTheShapeMap : Prop :=
  ∀ (s : State) (b : List Byte), s.input = .ok b → 7 ≤ b.length →
    exec .dec s = exec (frameRow (byteAt b 0) (byteAt b 1) (byteAt b 2)) s

/-- The model's own placement of a frame row (log 11): the next step runs it on its seven bytes. -/
def Obligations.PlacedFrameRowRunsNext : Prop :=
  ∀ (s : State) (h t c : Byte), 7 ≤ s.config.bufCap → 16 ≤ h.toNat →
    step (s.withFetchWord 24 (h.toNat * 65536 + t.toNat * 256 + c.toNat)) =
      exec (frameRow h t c) (s.placeInput [h, t, c, 0, 0, 0, 0])

/-- 70_reset_and_hazards.md rules R140, R141: the reset event; registers the spec leaves unspecified are not spoken of.
That the host's coming actions are a list in the state is the model's own (log 1). -/
def Obligations.ResetEventLeavesTheSpecValues : Prop :=
  ∀ (s : State) (es : List HostEvent), s.script = .reset :: es →
    ∃ t, step s = .next t ∧ t.ilen = 0 ∧ t.olen = 0 ∧ t.res = 0x00#8 ∧ t.flg = 0x00#8 ∧
      t.cfg = (if s.config.ceReset then 0x01#8 else 0x00#8) ∧ t.wf.extractLsb' 5 3 = 0#3 ∧
      t.input = .ok [] ∧ t.output = .ok [] ∧ t.config = s.config ∧ t.script = es

/-- 10_state.md rule R26: the values the spec gives for reset, in the state right after it. -/
def Obligations.ResetStateHasTheSpecValues : Prop :=
  State.reset.ilen = 0 ∧ State.reset.olen = 0 ∧ State.reset.res = 0x00#8 ∧ State.reset.flg = 0x00#8 ∧
  State.reset.cfg = 0x00#8 ∧ State.reset.wf.extractLsb' 5 3 = 0#3 ∧ State.reset.config.csumMinSpan = 4 ∧
  State.reset.config.tagMinLen = 11 ∧ State.reset.config.ceReset = false

/-! ## CLR, PUSH, SETCFG, the reserved codes, LOAD -/

/-- 44_control.md rule R110. -/
def Obligations.ClrEmptiesTheInput : Prop :=
  decodeCommand 0x10000#20 = .clr ∧
  ∀ s : State, ∃ t, exec .clr s = .next t ∧ t = { s with ilen := 0, flg := t.flg } ∧ t.flg.getLsbD 0 = false ∧
    (∀ k, 0 < k → t.flg.getLsbD k = s.flg.getLsbD k) ∧ t.input = .ok []

/-- 44_control.md rule R111. -/
def Obligations.PushAppendsOrSetsOverflow : Prop :=
  ∀ (s : State) (x : Byte), decodeCommand (commandWord 0x2 x 0) = .push x ∧
    (s.ilen < s.config.bufCap →
      ∃ t, exec (.push x) s = .next t ∧ t = { s with ibuf := t.ibuf, ilen := s.ilen + 1 } ∧
        t.ibufByte s.ilen = .ok x ∧ (∀ a, a ≠ s.ilen → t.ibufByte a = s.ibufByte a) ∧
        ∀ b, s.input = .ok b → t.input = .ok (b ++ [x])) ∧
    (s.config.bufCap ≤ s.ilen →
      ∃ t, exec (.push x) s = .next t ∧ t = { s with flg := t.flg } ∧ t.flg.getLsbD 0 = true ∧
        ∀ k, 0 < k → t.flg.getLsbD k = s.flg.getLsbD k)

/-- 44_control.md rule R112. -/
def Obligations.SetcfgKeepsBitZeroOnly : Prop :=
  ∀ (s : State) (v : Byte), decodeCommand (commandWord 0xA v 0) = .setcfg v ∧
    ∃ t, exec (.setcfg v) s = .next t ∧ t = { s with cfg := t.cfg } ∧
    t.cfg.getLsbD 0 = v.getLsbD 0 ∧ ∀ k, 0 < k → t.cfg.getLsbD k = false

/-- The hardware rule of 30_encoding.md rule R59 and 44_control.md rule R113. That the model performs it, and does not
refuse the codes as 93_implementation_defined.md U5 advises, is the model's choice (log 8). -/
def Obligations.ReservedCodesChangeNothing : Prop :=
  ∀ (s : State) (i : Instr),
    i = .reserved0 ∨ i = .reservedB ∨ i = .reservedC ∨ i = .reservedD ∨ i = .reservedE ∨ i = .reservedF →
    exec i s = .next s

/-- 30_encoding.md rule R61: LOAD is CLR followed by one PUSH a byte; after it the input is exactly those bytes. That the
commands are a list in the state, built by a function of the model, is its choice (logs 1, 16). -/
def Obligations.LoadedBytesAreTheInput : Prop :=
  ∀ (s : State) (bs : List Byte) (es : List HostEvent), bs.length ≤ s.config.bufCap →
    s.script = loadOps bs ++ es →
    ∃ t : State, Host.Core.run core (bs.length + 1) s = .next t ∧ t.input = .ok bs ∧ t.flg.getLsbD 0 = false ∧
      t = { s with ibuf := t.ibuf, ilen := bs.length, flg := t.flg, script := es }

/-- 10_state.md rule R21: only a PUSH into a full buffer sets OVF, only CLR (and reset) clears it. -/
def Obligations.OverflowFlagIsSticky : Prop :=
  ∀ (s t : State) (i : Instr), exec i s = .next t →
    (s.flg.getLsbD 0 = true → i ≠ .clr → t.flg.getLsbD 0 = true) ∧
    (s.flg.getLsbD 0 = false → t.flg.getLsbD 0 = true → s.config.bufCap ≤ s.ilen ∧ ∃ x, i = .push x)

/-! ## ENC, ENC.INV -/

/-- 40_encoder.md rules R65, R66, with the bytes of the frame written out (30_encoding.md rule R50). -/
def Obligations.EncBuildsTheFrame : Prop :=
  ∀ (s : State) (t c : Byte) (p : List Byte), s.config.csumMinSpan = 4 → s.input = .ok p →
    decodeCommand (commandWord 0x3 t c) = .enc t c ∧
    if 65535 < p.length ∨ s.config.bufCap < p.length + 7 then
      exec (.enc t c) s = .next { s with res := 0x07#8 }
    else
      ∃ u, exec (.enc t c) s = .next u ∧ u.output = .ok (encodedFrame t c p) ∧
        u = { s with obuf := u.obuf, olen := p.length + 7, csr := byteAt (encodedFrame t c p) (5 + p.length),
                     res := 0x80#8 }

/-- 40_encoder.md rule R67. -/
def Obligations.EncInvDeliversTheInventoryCommand : Prop :=
  decodeCommand 0x40000#20 = .encInv ∧
  ∀ s : State, s.config.IsFcodec →
    ∃ u, exec .encInv s = .next u ∧ u.output = .ok [0xBB#8, 0x00#8, 0x22#8, 0x00#8, 0x00#8, 0x22#8, 0x7E#8] ∧
      u = { s with obuf := u.obuf, olen := 7, csr := 0x22#8, res := 0x80#8 }

/-- 30_encoding.md rule R61: ENC.INV does to OBUF, OLEN, CSR and RES what CLR followed by ENC 0x00, 0x22 does. The
spec marks it as its own inference. -/
def Obligations.EncInvEqualsClrThenEnc : Prop :=
  ∀ s : State, s.config.IsFcodec →
    ∃ t u v, exec .clr s = .next t ∧ exec (.enc 0x00 0x22) t = .next u ∧ exec .encInv s = .next v ∧
      u.obuf = v.obuf ∧ u.olen = v.olen ∧ u.csr = v.csr ∧ u.res = v.res

/-- 40_encoder.md rule R68, clauses (a) to (g). The spec marks it as its own inference. -/
def Obligations.EncodedFramesHaveTheirProperties : Prop :=
  ∀ (cfg : Config) (t c : Byte) (p : List Byte) (ce : Bool), cfg.csumMinSpan = 4 → cfg.tagMinLen = 11 →
    p.length ≤ 65535 →
    (enc cfg t c p).length = p.length + 7 ∧
    (byteAt (enc cfg t c p) 0 = 0xBB#8 ∧ byteAt (enc cfg t c p) 1 = t ∧ byteAt (enc cfg t c p) 2 = c ∧
      lenField (enc cfg t c p) = p.length ∧ ((enc cfg t c p).drop 5).take p.length = p ∧
      byteAt (enc cfg t c p) (6 + p.length) = 0x7E#8) ∧
    byteAt (enc cfg t c p) (5 + p.length) = csum cfg (((enc cfg t c p).drop 1).take (4 + p.length)) ∧
    (wfClauses cfg (enc cfg t c p) = ⟨true, true, true, true⟩ ∧ (wfClauses cfg (enc cfg t c p)).all = true ∧
      ∃ k, verify cfg (enc cfg t c p) = .ok k) ∧
    pext (enc cfg t c p) = .ok p ∧
    (4 ≤ p.length → dec cfg ce (enc cfg 0x02 0x22 p) =
      .ok (.tagDetected (byteAt p 0) (byteAt p 1 ++ byteAt p 2) (p.drop 3)) ∧
      [byteAt p 0, byteAt p 1, byteAt p 2] ++ p.drop 3 = p) ∧
    (p.length = 3 → dec cfg ce (enc cfg 0x02 0x22 p) = .error .incompletePayload ∧
      ∀ x : Byte, dec cfg ce (enc cfg 0x02 0x22 p ++ [x]) =
        .ok (.tagDetected (byteAt p 0) (byteAt p 1 ++ byteAt p 2) [])) ∧
    (p.length < 3 → dec cfg ce (enc cfg 0x02 0x22 p) = .error .incompletePayload) ∧
    dec cfg ce (enc cfg 0x00 0x22 []) = .error .unknownShape

/-- 43_payload.md rule R107. The spec marks it as its own inference. -/
def Obligations.PayloadRoundTrip : Prop :=
  ∀ (cfg : Config) (t c : Byte) (p x : List Byte), p.length ≤ 65535 →
    pext (enc cfg t c p) = .ok p ∧ pext (enc cfg t c p ++ x) = .ok p

/-- 30_encoding.md rules R45, R49: a frame read at index 0 has, written out again, the bytes it was read from, and a frame
written out is read back whatever follows it. -/
def Obligations.FrameBytesRoundTrip : Prop :=
  (∀ (b : List Byte) (f : Frame), frameAt b = some f →
    f.toBytes = b.take (f.payloadLength.toNat + 7) ∧ f.payload.length = f.payloadLength.toNat) ∧
  ∀ (f : Frame) (x : List Byte), f.payload.length = f.payloadLength.toNat → frameAt (f.toBytes ++ x) = some f

/-! ## CSUM, VERIFY, WFCHK -/

/-- 41_checksum.md rules R73, R75. -/
def Obligations.CsumSumsTheInput : Prop :=
  ∀ (s : State) (b : List Byte), s.config.csumMinSpan = 4 → s.input = .ok b →
    decodeCommand 0x50000#20 = .csum ∧
    exec .csum s = .next { s with csr := if b.length < 4 then 0x00#8 else sum256 b, res := 0x80#8 }

/-- 41_checksum.md rule R74 (a), (b): the running 8-bit sum is the sum modulo 256, the order of the bytes does not
matter, the sum of a concatenation is the sum of the sums. The spec marks it as its own inference. -/
def Obligations.ChecksumArithmetic : Prop :=
  ∀ (cfg : Config) (s t : List Byte), cfg.csumMinSpan = 4 → 4 ≤ s.length →
    csum cfg s = s.foldl (fun acc x => acc + x) 0x00#8 ∧
    (s.Perm t → csum cfg t = csum cfg s) ∧
    csum cfg (s ++ t) = csum cfg s + sum256 t ∧
    ((∀ x ∈ s, x = 0x00#8) → csum cfg s = 0x00#8)

/-- 41_checksum.md rules R76, R77. -/
def Obligations.VerifyJudgesTheChecksum : Prop :=
  ∀ (s : State) (b : List Byte), s.config.csumMinSpan = 4 → s.input = .ok b →
    decodeCommand 0x60000#20 = .verify ∧
    exec .verify s = .next
      (if b.length < 7 then { s with res := 0x01#8 }
       else if b.length < 5 + lenField b + 2 then { s with res := 0x03#8 }
       else { s with csr := spanSum b, res := if checksumByte b = spanSum b then 0x80#8 else 0x04#8 })

/-- 41_checksum.md rules R80, R81. -/
def Obligations.WfchkReportsTheClauses : Prop :=
  ∀ (s : State) (b : List Byte), s.config.csumMinSpan = 4 → s.input = .ok b →
    decodeCommand 0x70000#20 = .wfchk ∧ ∃ t, exec .wfchk s = .next t ∧
      t = { s with wf := t.wf, csr := if Complete b then spanSum b else s.csr, res := 0x80#8 } ∧
      t.wf.getLsbD 0 = decide (1 ≤ b.length ∧ byteAt b 0 = 0xBB#8) ∧
      t.wf.getLsbD 1 = decide (Complete b) ∧
      t.wf.getLsbD 2 = decide (Complete b ∧ checksumByte b = spanSum b) ∧
      t.wf.getLsbD 3 = decide (Complete b ∧ byteAt b (6 + lenField b) = 0x7E#8) ∧
      t.wf.getLsbD 4 = (t.wf.getLsbD 0 && t.wf.getLsbD 1 && t.wf.getLsbD 2 && t.wf.getLsbD 3) ∧
      t.wf.extractLsb' 5 3 = 0#3

/-- 41_checksum.md rule R82: a change to exactly one of frame type, command, payload or checksum byte makes the
checksum clause fail; a change to the header or to the terminator leaves it as it was. The spec marks it as its own
inference. -/
def Obligations.SingleByteChangesAreDetected : Prop :=
  ∀ (cfg : Config) (b : List Byte) (k : Nat) (v : Byte), cfg.csumMinSpan = 4 → Complete b →
    (wfClauses cfg b).c = true →
    ((k = 1 ∨ k = 2 ∨ (5 ≤ k ∧ k ≤ 5 + lenField b)) → v ≠ byteAt b k → (wfClauses cfg (b.set k v)).c = false) ∧
    ((k = 0 ∨ k = 6 + lenField b) → (wfClauses cfg (b.set k v)).c = true)

/-! ## PEXT -/

/-- 43_payload.md rules R105, R106. -/
def Obligations.PextExtractsThePayload : Prop :=
  ∀ (s : State) (b : List Byte), s.input = .ok b →
    decodeCommand 0x80000#20 = .pext ∧
    if b.length < 7 then exec .pext s = .next { s with res := 0x01#8 }
    else if byteAt b 0 ≠ 0xBB#8 then exec .pext s = .next { s with res := 0x02#8 }
    else if b.length < 5 + lenField b + 2 then exec .pext s = .next { s with res := 0x03#8 }
    else
      ∃ t, exec .pext s = .next t ∧ t.output = .ok ((b.drop 5).take (lenField b)) ∧
        t = { s with obuf := t.obuf, olen := lenField b, res := 0x80#8 }

/-- 43_payload.md rule R108: on the tag path the fields are the payload cut in three, on the error path the code is
the first byte of a payload that is there; and neither converse holds. The spec marks it as its own inference. -/
def Obligations.DecodedFieldsAreThePayload : Prop :=
  (∀ (cfg : Config) (b epc : List Byte) (x : Byte) (pc : BitVec 16),
    decRef cfg b = .ok (.tagDetected x pc epc) →
    ∃ p, pext b = .ok p ∧ 3 ≤ p.length ∧ byteAt p 0 = x ∧ byteAt p 1 ++ byteAt p 2 = pc ∧ p.drop 3 = epc) ∧
  (∀ (cfg : Config) (b p : List Byte) (code : Byte),
    decRef cfg b = .ok (.errorReported code) → pext b = .ok p → p ≠ [] → code = byteAt p 0) ∧
  ∀ cfg : Config, cfg.tagMinLen = 11 →
    (∃ b p, pext b = .ok p ∧ decRef cfg b = .error .unknownShape) ∧
    (∃ b p, StartsWith b 0xBB#8 0x02#8 0x22#8 ∧ pext b = .ok p ∧ p.length < 3 ∧
      decRef cfg b = .error .incompletePayload) ∧
    (∃ b p, StartsWith b 0xBB#8 0x02#8 0x22#8 ∧ b.length = 10 ∧ Complete b ∧ pext b = .ok p ∧
      decRef cfg b = .error .incompletePayload) ∧
    ∃ b code, decRef cfg b = .ok (.errorReported code) ∧ pext b = .error .incompletePayload

/-! ## DEC and the rows of the shape map -/

/-- 42_decoder.md rule R86, at either value of CFG.CE. -/
def Obligations.ShortInputIsTooShort : Prop :=
  ∀ (s : State) (b : List Byte), s.input = .ok b → b.length < 7 →
    exec .dec s = .next { s with res := 0x01#8 }

/-- 42_decoder.md rule R87, for DEC and for the row FRAME.NOHEADER, at either value of CFG.CE. -/
def Obligations.WrongHeaderIsBadHeader : Prop :=
  ∀ (s : State) (b : List Byte) (h t c : Byte) (i : Instr), s.input = .ok b → 7 ≤ b.length → StartsWith b h t c →
    h ≠ 0xBB#8 → i = .dec ∨ i = .frameNoHeader h t c →
    exec i s = .next { s with res := 0x02#8 }

/-- 42_decoder.md rule R88 with the gate of R91, for DEC and for the rows FRAME.RSP.ERR and FRAME.RSP.OTHER. -/
def Obligations.ResponsesAreReportedOrUnrecognized : Prop :=
  ∀ (s : State) (b : List Byte) (c : Byte) (i : Instr), s.config.csumMinSpan = 4 → s.input = .ok b → 7 ≤ b.length →
    StartsWith b 0xBB#8 0x01#8 c →
    i = .dec ∨ (i = .frameRspErr ∧ c = 0xFF#8) ∨ (i = .frameRspOther c ∧ c ≠ 0xFF#8) →
    exec i s = .next
      (if s.cfg.getLsbD 0 = true ∧ b.length < 5 + lenField b + 2 then { s with res := 0x03#8 }
       else if s.cfg.getLsbD 0 = true ∧ checksumByte b ≠ spanSum b then { s with res := 0x04#8 }
       else if c = 0xFF#8 then { s with errcode := byteAt b 5, res := 0xC0#8 }
       else { s with res := 0xE0#8 })

/-- 42_decoder.md rule R89 with the gate of R91, for DEC and for the row FRAME.NTF.TAG. -/
def Obligations.TagNotificationDeliversTheTag : Prop :=
  ∀ (s : State) (b : List Byte) (i : Instr), s.config.csumMinSpan = 4 → s.config.tagMinLen = 11 → s.input = .ok b →
    7 ≤ b.length → StartsWith b 0xBB#8 0x02#8 0x22#8 → i = .dec ∨ i = .frameNtfTag →
    if b.length < 11 ∨ b.length < 5 + lenField b + 2 ∨ lenField b < 3 then
      exec i s = .next { s with res := 0x03#8 }
    else if s.cfg.getLsbD 0 = true ∧ checksumByte b ≠ spanSum b then
      exec i s = .next { s with res := 0x04#8 }
    else
      ∃ t, exec i s = .next t ∧ t.output = .ok ((b.drop 8).take (lenField b - 3)) ∧
        t = { s with rssi := byteAt b 5, pcw := byteAt b 6 ++ byteAt b 7, obuf := t.obuf, olen := lenField b - 3,
                     res := 0xA0#8 }

/-- 42_decoder.md rule R90, for DEC and for the rows FRAME.CMD.INV and FRAME.OTHER, at either value of CFG.CE. -/
def Obligations.EverythingElseIsUnknownShape : Prop :=
  ∀ (s : State) (b : List Byte) (t c : Byte) (i : Instr), s.input = .ok b → 7 ≤ b.length →
    StartsWith b 0xBB#8 t c → t ≠ 0x01#8 → ¬ (t = 0x02#8 ∧ c = 0x22#8) →
    i = .dec ∨ (i = .frameCmdInv ∧ t = 0x00#8 ∧ c = 0x22#8) ∨ (i = .frameOther t c ∧ ¬ (t = 0x00#8 ∧ c = 0x22#8)) →
    exec i s = .next { s with res := 0x05#8 }

/-- 42_decoder.md rule R91. -/
def Obligations.ChecksumGateReplacesEventsOnly : Prop :=
  ∀ (cfg : Config) (b : List Byte),
    dec cfg false b = decRef cfg b ∧
    dec cfg false b ≠ .error .badChecksum ∧
    (∀ f, decRef cfg b = .error f → dec cfg true b = .error f) ∧
    (∀ e, decRef cfg b = .ok e →
      ((∃ k, verify cfg b = .ok k) → dec cfg true b = .ok e) ∧
      (∀ f, verify cfg b = .error f →
        dec cfg true b = .error f ∧ (f = .incompletePayload ∨ f = .badChecksum)))

/-- The model's own reading of a frame row (log 9): the row's path runs on whatever the input holds, behind the length
floor, its own three bytes not read again. -/
def Obligations.FrameRowsRunTheirPathOnAnyInput : Prop :=
  ∀ (s : State) (b : List Byte) (i : Instr), s.config.csumMinSpan = 4 → s.config.tagMinLen = 11 → s.input = .ok b →
    (b.length < 7 → i.decodes = true → exec i s = .next { s with res := 0x01#8 }) ∧
    (7 ≤ b.length → (∃ h t c, i = .frameNoHeader h t c) → exec i s = .next { s with res := 0x02#8 }) ∧
    (7 ≤ b.length → i = .frameCmdInv ∨ (∃ t c, i = .frameOther t c) → exec i s = .next { s with res := 0x05#8 }) ∧
    (7 ≤ b.length → i = .frameRspErr ∨ (∃ c, i = .frameRspOther c) →
      exec i s = .next
        (if s.cfg.getLsbD 0 = true ∧ b.length < 5 + lenField b + 2 then { s with res := 0x03#8 }
         else if s.cfg.getLsbD 0 = true ∧ checksumByte b ≠ spanSum b then { s with res := 0x04#8 }
         else if i = .frameRspErr then { s with errcode := byteAt b 5, res := 0xC0#8 }
         else { s with res := 0xE0#8 })) ∧
    (7 ≤ b.length → i = .frameNtfTag →
      if b.length < 11 ∨ b.length < 5 + lenField b + 2 ∨ lenField b < 3 then
        exec i s = .next { s with res := 0x03#8 }
      else if s.cfg.getLsbD 0 = true ∧ checksumByte b ≠ spanSum b then
        exec i s = .next { s with res := 0x04#8 }
      else
        ∃ t, exec i s = .next t ∧ t.output = .ok ((b.drop 8).take (lenField b - 3)) ∧
          t = { s with rssi := byteAt b 5, pcw := byteAt b 6 ++ byteAt b 7, obuf := t.obuf, olen := lenField b - 3,
                       res := 0xA0#8 })

/-- 42_decoder.md rule R92: which registers each of the eight results is delivered in. -/
def Obligations.DecDeliversItsResult : Prop :=
  ∀ (s : State) (b : List Byte), s.input = .ok b →
    decodeCommand 0x90000#20 = .dec ∧
    match dec s.config (s.cfg.getLsbD 0) b with
    | .ok (.tagDetected rssi pc epc) =>
      ∃ t, exec .dec s = .next t ∧ t.output = .ok epc ∧
        t = { s with rssi := rssi, pcw := pc, obuf := t.obuf, olen := epc.length, res := 0xA0#8 }
    | .ok (.errorReported code) => exec .dec s = .next { s with errcode := code, res := 0xC0#8 }
    | .ok .unrecognized => exec .dec s = .next { s with res := 0xE0#8 }
    | .error .tooShort => exec .dec s = .next { s with res := 0x01#8 }
    | .error .badHeader => exec .dec s = .next { s with res := 0x02#8 }
    | .error .incompletePayload => exec .dec s = .next { s with res := 0x03#8 }
    | .error .badChecksum => s.cfg.getLsbD 0 = true ∧ exec .dec s = .next { s with res := 0x04#8 }
    | .error .unknownShape => exec .dec s = .next { s with res := 0x05#8 }

/-- 95_test_vectors.md section 4 item 6, 42_decoder.md rule R89 (b), (c), (d): no truncated EPC. -/
def Obligations.TagEventsFitTheirFrame : Prop :=
  ∀ (cfg : Config) (ce : Bool) (b epc : List Byte) (x : Byte) (pc : BitVec 16), cfg.tagMinLen = 11 →
    dec cfg ce b = .ok (.tagDetected x pc epc) →
    3 ≤ lenField b ∧ epc.length = lenField b - 3 ∧ 10 + epc.length ≤ b.length ∧ 11 ≤ b.length

/-- 20_memory.md rule R37, 95_test_vectors.md section 4 item 7: bytes after a frame never change an event, nor the
failures BadHeader, UnknownShape and BadChecksum. The spec marks it as its own inference. -/
def Obligations.TrailingBytesNeverChangeAnEvent : Prop :=
  ∀ (cfg : Config) (ce : Bool) (b x : List Byte),
    (∀ e, dec cfg ce b = .ok e → dec cfg ce (b ++ x) = .ok e) ∧
    ∀ f, f = .badHeader ∨ f = .unknownShape ∨ f = .badChecksum →
      dec cfg ce b = .error f → dec cfg ce (b ++ x) = .error f

/-- 42_decoder.md rule R94, 10_state.md rule R25: what DEC delivers depends on the input and CFG.CE alone. -/
def Obligations.DecDependsOnInputAndCeAlone : Prop :=
  ∀ (s u : State) (b : List Byte), s.input = .ok b → u.input = .ok b → s.config = u.config →
    s.cfg.getLsbD 0 = u.cfg.getLsbD 0 →
    ∃ s' u', exec .dec s = .next s' ∧ exec .dec u = .next u' ∧ s'.res = u'.res ∧
      (s'.res = 0xA0#8 → s'.rssi = u'.rssi ∧ s'.pcw = u'.pcw ∧ s'.olen = u'.olen ∧ s'.output = u'.output) ∧
      (s'.res = 0xC0#8 → s'.errcode = u'.errcode)

/-- 20_memory.md rule R43, 42_decoder.md rule R94: DEC consumes nothing, and a second DEC gives the same result. -/
def Obligations.SecondDecGivesTheSameState : Prop :=
  ∀ s t : State, s.Inv → exec .dec s = .next t → exec .dec t = .next t

/-! ## The host's side -/

/-- 10_state.md rules R11, R14: the host reads the output byte by byte, its length at OLEN. That a host read is a function
of the model is log 16. -/
def Obligations.HostReadsTheOutput : Prop :=
  ∀ (s : State) (o : List Byte), s.output = .ok o →
    s.hostRead .olen = some o.length ∧ ∀ i, i < o.length → s.hostRead (.obuf i) = some (byteAt o i).toNat

/-- 10_state.md rules R11, R13, R14, R26: in every state every byte of IBUF and OBUF below BUF_CAP holds a value, written
or not, and the host reads every byte of OBUF. That an index at or above BUF_CAP stops is log 6, that an unwritten byte is
a free value log 5, that a host read is a function of the model log 16. -/
def Obligations.EveryBufferByteHoldsAValue : Prop :=
  ∀ (s : State) (i : Nat),
    (i < s.config.bufCap →
      (∃ x, s.ibufByte i = .ok x) ∧ ∃ y, s.obufByte i = .ok y ∧ s.hostRead (.obuf i) = some y.toNat) ∧
    (s.config.bufCap ≤ i → s.ibufByte i = .error .bufferIndexOutOfRange ∧
      s.obufByte i = .error .bufferIndexOutOfRange ∧ s.hostRead (.obuf i) = none)

/-- The spec's own inferences in 40_encoder.md section 3, clause (f), and 43_payload.md, round trip, run over the LOOPBACK
of 30_encoding.md section 5: a tag notification built by ENC, looped back over the command port and decoded is delivered
field by field, and PEXT then returns the payload whole. That the host's commands are a list in the state is the model's
choice (log 1), and so is that LOOPBACK is a function that builds such a list (log 16). -/
def Obligations.EncodeLoopbackDecodeRoundTrip : Prop :=
  ∀ (s : State) (p : List Byte) (es : List HostEvent), s.config.IsFcodec → s.input = .ok p →
    4 ≤ p.length → p.length ≤ 65535 → p.length + 7 ≤ s.config.bufCap →
    ∃ t ops, exec (.enc 0x02 0x22) s = .next t ∧ loopbackOps t = .ok ops ∧ ops.length = p.length + 8 ∧
      ∃ u, Host.Core.run core (p.length + 9) { t with script := ops ++ .command 0x90000#20 :: es } = .next u ∧
        u.res = 0xA0#8 ∧ u.rssi = byteAt p 0 ∧ u.pcw = byteAt p 1 ++ byteAt p 2 ∧ u.output = .ok (p.drop 3) ∧
        u.script = es ∧
        ∃ v, exec .pext u = .next v ∧ v.res = 0x80#8 ∧ v.output = .ok p

/-! ## The whole machine -/

/-- 10_state.md rule R23: which operation may write which register, and under which condition. -/
def Obligations.WriteSetsOfTheOperations : Prop :=
  ∀ (s t : State) (i : Instr), exec i s = .next t →
    t.config = s.config ∧ t.script = s.script ∧ t.freeCount = s.freeCount ∧
    (t.ibuf ≠ s.ibuf → ∃ x, i = .push x) ∧
    (t.ilen ≠ s.ilen → i = .clr ∨ ∃ x, i = .push x) ∧
    (t.flg ≠ s.flg → (i = .clr ∨ ∃ x, i = .push x) ∧ ∀ k, 0 < k → t.flg.getLsbD k = s.flg.getLsbD k) ∧
    (∀ x, i = .push x → t.flg = s.flg ∨ (t.ibuf = s.ibuf ∧ t.ilen = s.ilen)) ∧
    (t.cfg ≠ s.cfg → ∃ v, i = .setcfg v) ∧
    (t.res ≠ s.res → i.computes = true) ∧
    (t.wf ≠ s.wf → i = .wfchk) ∧
    (t.rssi ≠ s.rssi ∨ t.pcw ≠ s.pcw → (i = .dec ∨ i = .frameNtfTag) ∧ t.res = 0xA0#8) ∧
    (t.errcode ≠ s.errcode → (i = .dec ∨ i = .frameRspErr) ∧ t.res = 0xC0#8) ∧
    (t.obuf ≠ s.obuf ∨ t.olen ≠ s.olen →
      (((∃ a b, i = .enc a b) ∨ i = .encInv ∨ i = .pext) ∧ t.res = 0x80#8) ∨
      ((i = .dec ∨ i = .frameNtfTag) ∧ t.res = 0xA0#8)) ∧
    (t.csr ≠ s.csr →
      (((∃ a b, i = .enc a b) ∨ i = .encInv ∨ i = .csum) ∧ t.res = 0x80#8) ∨
      (i = .verify ∧ (t.res = 0x80#8 ∨ t.res = 0x04#8)) ∨ (i = .wfchk ∧ t.wf.getLsbD 1 = true))

/-- 93_implementation_defined.md U6: bytes of OBUF at OLEN and above are whatever was there before. That the model keeps
them is its choice (log 12), so the statements about results speak of `OBUF[0..OLEN)` only and this one of the rest. -/
def Obligations.OutputBytesBeyondOlenAreKept : Prop :=
  ∀ (s t : State) (i : Instr), exec i s = .next t →
    ∀ a, t.olen ≤ a → t.obufByte a = s.obufByte a

/-- 10_state.md rules R13, R25, R26: no operation reads an unspecified value. Two good states with the same input sequence may
differ in everything reset leaves unspecified and in every byte of IBUF outside the sequence; every operation then does
the same to both: RES, FLG, CFG and the input agree, and each result either agrees or is kept in both. The model's choices
enter here: `freeCount` picks the values of the buffers' unwritten bytes (log 5), a reserved code completes where
93_implementation_defined.md U5 advises a refusal (log 8), and a frame row runs on any input (log 9). -/
def Obligations.NoOperationReadsAnUnspecifiedValue : Prop :=
  ∀ (s u : State) (i : Instr), s.Inv → u.Inv → u.input = s.input → u.res = s.res → u.flg = s.flg → u.cfg = s.cfg →
    u.config = s.config →
    ∃ s' u', exec i s = .next s' ∧ exec i u = .next u' ∧ u'.res = s'.res ∧ u'.flg = s'.flg ∧ u'.cfg = s'.cfg ∧
      u'.ilen = s'.ilen ∧ u'.input = s'.input ∧
      ((u'.rssi = s'.rssi ∧ u'.pcw = s'.pcw) ∨
        (u'.rssi = u.rssi ∧ u'.pcw = u.pcw ∧ s'.rssi = s.rssi ∧ s'.pcw = s.pcw)) ∧
      (u'.errcode = s'.errcode ∨ (u'.errcode = u.errcode ∧ s'.errcode = s.errcode)) ∧
      (u'.csr = s'.csr ∨ (u'.csr = u.csr ∧ s'.csr = s.csr)) ∧
      (u'.wf = s'.wf ∨ (u'.wf = u.wf ∧ s'.wf = s.wf)) ∧
      ((u'.olen = s'.olen ∧ u'.output = s'.output) ∨
        (u'.olen = u.olen ∧ u'.output = u.output ∧ s'.olen = s.olen ∧ s'.output = s.output))

/-- 60_exceptions.md rule R124: a failure changes RES and nothing else, but for VERIFY's CSR on `BadChecksum` (R23). -/
def Obligations.FailureChangesResOnly : Prop :=
  ∀ (s t : State) (i : Instr), exec i s = .next t → i.computes = true → t.res.getLsbD 7 = false →
    t = { s with res := t.res, csr := t.csr } ∧ (t.csr ≠ s.csr → i = .verify ∧ t.res = 0x04#8)

/-- 10_state.md rule R15. -/
def Obligations.ResSaysOneOutcome : Prop :=
  ∀ (s t : State) (i : Instr), exec i s = .next t →
    (i.computes = true →
      t.res ≠ 0x00#8 ∧ t.res.extractLsb' 3 2 = 0#2 ∧
      (t.res.getLsbD 7 = true → t.res.extractLsb' 0 3 = 0#3) ∧
      (t.res.getLsbD 7 = false → t.res.extractLsb' 0 3 ≠ 0#3 ∧ t.res.extractLsb' 5 2 = 0#2) ∧
      (t.res.extractLsb' 5 2 ≠ 0#2 → i.decodes = true ∧ t.res.getLsbD 7 = true)) ∧
    (i.computes = false → t.res = s.res)

/-- The invariant holds right after reset; the listed values of logs 3, 5 and 7 enter here. -/
def Obligations.InvHoldsAtReset : Prop := State.reset.Inv

/-- Every step keeps the invariant: canonical buffers that hold every byte below ILEN and OLEN and none outside BUF_CAP,
lengths at most BUF_CAP, RES legal, reserved bits 0 (10_state.md rules R13 to R15, R20 to R22, R24). -/
def Obligations.EveryStepKeepsTheInvariant : Prop :=
  ∀ s t : State, s.Inv → step s = .next t → t.Inv

/-- 70_reset_and_hazards.md rule R150, 00_scope.md rule R7: from a good state every step completes, no fault, no refusal.
That a reserved operation code completes, where 93_implementation_defined.md U5 advises a model to refuse it, is the
model's choice (log 8), and so are the script (log 1) and the idle step (log 2). -/
def Obligations.EveryStepCompletes : Prop :=
  ∀ s : State, s.Inv → ∃ t, step s = .next t

/-- A byte written to a buffer is read back, every other byte reads as before, and the canonical form is kept, in which
equal reads are equal data. -/
def Obligations.BufferReadsAfterWrites : Prop :=
  ∀ (m n : Memory) (i j : Nat) (x : Byte), Memory.wf m = true → Memory.wf n = true →
    Memory.read (Memory.write m i x) i = some x ∧
    (j ≠ i → Memory.read (Memory.write m i x) j = Memory.read m j) ∧
    Memory.wf (Memory.write m i x) = true ∧
    ((∀ k, Memory.read m k = Memory.read n k) → m = n)
end

