-- ==== Sys2Proof/Laws/State.lean ====
section
/-! SUPPORT. What each named register write leaves in each field of the state, one lemma a field. -/

namespace Sys2Proof.Machine

variable (s : State)

@[simp] theorem State.setRes_ibuf (r : BitVec 8) : (s.setRes r).ibuf = s.ibuf := rfl
@[simp] theorem State.setRes_ilen (r : BitVec 8) : (s.setRes r).ilen = s.ilen := rfl
@[simp] theorem State.setRes_obuf (r : BitVec 8) : (s.setRes r).obuf = s.obuf := rfl
@[simp] theorem State.setRes_olen (r : BitVec 8) : (s.setRes r).olen = s.olen := rfl
@[simp] theorem State.setRes_res (r : BitVec 8) : (s.setRes r).res = r := rfl
@[simp] theorem State.setRes_rssi (r : BitVec 8) : (s.setRes r).rssi = s.rssi := rfl
@[simp] theorem State.setRes_pcw (r : BitVec 8) : (s.setRes r).pcw = s.pcw := rfl
@[simp] theorem State.setRes_errcode (r : BitVec 8) : (s.setRes r).errcode = s.errcode := rfl
@[simp] theorem State.setRes_csr (r : BitVec 8) : (s.setRes r).csr = s.csr := rfl
@[simp] theorem State.setRes_wf (r : BitVec 8) : (s.setRes r).wf = s.wf := rfl
@[simp] theorem State.setRes_flg (r : BitVec 8) : (s.setRes r).flg = s.flg := rfl
@[simp] theorem State.setRes_cfg (r : BitVec 8) : (s.setRes r).cfg = s.cfg := rfl
@[simp] theorem State.setRes_config (r : BitVec 8) : (s.setRes r).config = s.config := rfl
@[simp] theorem State.setRes_script (r : BitVec 8) : (s.setRes r).script = s.script := rfl
@[simp] theorem State.setRes_freeCount (r : BitVec 8) : (s.setRes r).freeCount = s.freeCount := rfl

@[simp] theorem State.setCsr_ibuf (k : Byte) : (s.setCsr k).ibuf = s.ibuf := rfl
@[simp] theorem State.setCsr_ilen (k : Byte) : (s.setCsr k).ilen = s.ilen := rfl
@[simp] theorem State.setCsr_obuf (k : Byte) : (s.setCsr k).obuf = s.obuf := rfl
@[simp] theorem State.setCsr_olen (k : Byte) : (s.setCsr k).olen = s.olen := rfl
@[simp] theorem State.setCsr_res (k : Byte) : (s.setCsr k).res = s.res := rfl
@[simp] theorem State.setCsr_rssi (k : Byte) : (s.setCsr k).rssi = s.rssi := rfl
@[simp] theorem State.setCsr_pcw (k : Byte) : (s.setCsr k).pcw = s.pcw := rfl
@[simp] theorem State.setCsr_errcode (k : Byte) : (s.setCsr k).errcode = s.errcode := rfl
@[simp] theorem State.setCsr_csr (k : Byte) : (s.setCsr k).csr = k := rfl
@[simp] theorem State.setCsr_wf (k : Byte) : (s.setCsr k).wf = s.wf := rfl
@[simp] theorem State.setCsr_flg (k : Byte) : (s.setCsr k).flg = s.flg := rfl
@[simp] theorem State.setCsr_cfg (k : Byte) : (s.setCsr k).cfg = s.cfg := rfl
@[simp] theorem State.setCsr_config (k : Byte) : (s.setCsr k).config = s.config := rfl
@[simp] theorem State.setCsr_script (k : Byte) : (s.setCsr k).script = s.script := rfl
@[simp] theorem State.setCsr_freeCount (k : Byte) : (s.setCsr k).freeCount = s.freeCount := rfl

@[simp] theorem State.setWf_ibuf (w : BitVec 8) : (s.setWf w).ibuf = s.ibuf := rfl
@[simp] theorem State.setWf_ilen (w : BitVec 8) : (s.setWf w).ilen = s.ilen := rfl
@[simp] theorem State.setWf_obuf (w : BitVec 8) : (s.setWf w).obuf = s.obuf := rfl
@[simp] theorem State.setWf_olen (w : BitVec 8) : (s.setWf w).olen = s.olen := rfl
@[simp] theorem State.setWf_res (w : BitVec 8) : (s.setWf w).res = s.res := rfl
@[simp] theorem State.setWf_rssi (w : BitVec 8) : (s.setWf w).rssi = s.rssi := rfl
@[simp] theorem State.setWf_pcw (w : BitVec 8) : (s.setWf w).pcw = s.pcw := rfl
@[simp] theorem State.setWf_errcode (w : BitVec 8) : (s.setWf w).errcode = s.errcode := rfl
@[simp] theorem State.setWf_csr (w : BitVec 8) : (s.setWf w).csr = s.csr := rfl
@[simp] theorem State.setWf_wf (w : BitVec 8) : (s.setWf w).wf = w := rfl
@[simp] theorem State.setWf_flg (w : BitVec 8) : (s.setWf w).flg = s.flg := rfl
@[simp] theorem State.setWf_cfg (w : BitVec 8) : (s.setWf w).cfg = s.cfg := rfl
@[simp] theorem State.setWf_config (w : BitVec 8) : (s.setWf w).config = s.config := rfl
@[simp] theorem State.setWf_script (w : BitVec 8) : (s.setWf w).script = s.script := rfl
@[simp] theorem State.setWf_freeCount (w : BitVec 8) : (s.setWf w).freeCount = s.freeCount := rfl

@[simp] theorem State.setTag_ibuf (x : Byte) (p : BitVec 16) : (s.setTag x p).ibuf = s.ibuf := rfl
@[simp] theorem State.setTag_ilen (x : Byte) (p : BitVec 16) : (s.setTag x p).ilen = s.ilen := rfl
@[simp] theorem State.setTag_obuf (x : Byte) (p : BitVec 16) : (s.setTag x p).obuf = s.obuf := rfl
@[simp] theorem State.setTag_olen (x : Byte) (p : BitVec 16) : (s.setTag x p).olen = s.olen := rfl
@[simp] theorem State.setTag_res (x : Byte) (p : BitVec 16) : (s.setTag x p).res = s.res := rfl
@[simp] theorem State.setTag_rssi (x : Byte) (p : BitVec 16) : (s.setTag x p).rssi = x := rfl
@[simp] theorem State.setTag_pcw (x : Byte) (p : BitVec 16) : (s.setTag x p).pcw = p := rfl
@[simp] theorem State.setTag_errcode (x : Byte) (p : BitVec 16) : (s.setTag x p).errcode = s.errcode := rfl
@[simp] theorem State.setTag_csr (x : Byte) (p : BitVec 16) : (s.setTag x p).csr = s.csr := rfl
@[simp] theorem State.setTag_wf (x : Byte) (p : BitVec 16) : (s.setTag x p).wf = s.wf := rfl
@[simp] theorem State.setTag_flg (x : Byte) (p : BitVec 16) : (s.setTag x p).flg = s.flg := rfl
@[simp] theorem State.setTag_cfg (x : Byte) (p : BitVec 16) : (s.setTag x p).cfg = s.cfg := rfl
@[simp] theorem State.setTag_config (x : Byte) (p : BitVec 16) : (s.setTag x p).config = s.config := rfl
@[simp] theorem State.setTag_script (x : Byte) (p : BitVec 16) : (s.setTag x p).script = s.script := rfl
@[simp] theorem State.setTag_freeCount (x : Byte) (p : BitVec 16) : (s.setTag x p).freeCount = s.freeCount := rfl

@[simp] theorem State.setErrcode_ibuf (x : Byte) : (s.setErrcode x).ibuf = s.ibuf := rfl
@[simp] theorem State.setErrcode_ilen (x : Byte) : (s.setErrcode x).ilen = s.ilen := rfl
@[simp] theorem State.setErrcode_obuf (x : Byte) : (s.setErrcode x).obuf = s.obuf := rfl
@[simp] theorem State.setErrcode_olen (x : Byte) : (s.setErrcode x).olen = s.olen := rfl
@[simp] theorem State.setErrcode_res (x : Byte) : (s.setErrcode x).res = s.res := rfl
@[simp] theorem State.setErrcode_rssi (x : Byte) : (s.setErrcode x).rssi = s.rssi := rfl
@[simp] theorem State.setErrcode_pcw (x : Byte) : (s.setErrcode x).pcw = s.pcw := rfl
@[simp] theorem State.setErrcode_errcode (x : Byte) : (s.setErrcode x).errcode = x := rfl
@[simp] theorem State.setErrcode_csr (x : Byte) : (s.setErrcode x).csr = s.csr := rfl
@[simp] theorem State.setErrcode_wf (x : Byte) : (s.setErrcode x).wf = s.wf := rfl
@[simp] theorem State.setErrcode_flg (x : Byte) : (s.setErrcode x).flg = s.flg := rfl
@[simp] theorem State.setErrcode_cfg (x : Byte) : (s.setErrcode x).cfg = s.cfg := rfl
@[simp] theorem State.setErrcode_config (x : Byte) : (s.setErrcode x).config = s.config := rfl
@[simp] theorem State.setErrcode_script (x : Byte) : (s.setErrcode x).script = s.script := rfl
@[simp] theorem State.setErrcode_freeCount (x : Byte) : (s.setErrcode x).freeCount = s.freeCount := rfl

@[simp] theorem State.setFlg_ibuf (f : BitVec 8) : (s.setFlg f).ibuf = s.ibuf := rfl
@[simp] theorem State.setFlg_ilen (f : BitVec 8) : (s.setFlg f).ilen = s.ilen := rfl
@[simp] theorem State.setFlg_obuf (f : BitVec 8) : (s.setFlg f).obuf = s.obuf := rfl
@[simp] theorem State.setFlg_olen (f : BitVec 8) : (s.setFlg f).olen = s.olen := rfl
@[simp] theorem State.setFlg_res (f : BitVec 8) : (s.setFlg f).res = s.res := rfl
@[simp] theorem State.setFlg_rssi (f : BitVec 8) : (s.setFlg f).rssi = s.rssi := rfl
@[simp] theorem State.setFlg_pcw (f : BitVec 8) : (s.setFlg f).pcw = s.pcw := rfl
@[simp] theorem State.setFlg_errcode (f : BitVec 8) : (s.setFlg f).errcode = s.errcode := rfl
@[simp] theorem State.setFlg_csr (f : BitVec 8) : (s.setFlg f).csr = s.csr := rfl
@[simp] theorem State.setFlg_wf (f : BitVec 8) : (s.setFlg f).wf = s.wf := rfl
@[simp] theorem State.setFlg_flg (f : BitVec 8) : (s.setFlg f).flg = f := rfl
@[simp] theorem State.setFlg_cfg (f : BitVec 8) : (s.setFlg f).cfg = s.cfg := rfl
@[simp] theorem State.setFlg_config (f : BitVec 8) : (s.setFlg f).config = s.config := rfl
@[simp] theorem State.setFlg_script (f : BitVec 8) : (s.setFlg f).script = s.script := rfl
@[simp] theorem State.setFlg_freeCount (f : BitVec 8) : (s.setFlg f).freeCount = s.freeCount := rfl

@[simp] theorem State.setCfg_ibuf (c : BitVec 8) : (s.setCfg c).ibuf = s.ibuf := rfl
@[simp] theorem State.setCfg_ilen (c : BitVec 8) : (s.setCfg c).ilen = s.ilen := rfl
@[simp] theorem State.setCfg_obuf (c : BitVec 8) : (s.setCfg c).obuf = s.obuf := rfl
@[simp] theorem State.setCfg_olen (c : BitVec 8) : (s.setCfg c).olen = s.olen := rfl
@[simp] theorem State.setCfg_res (c : BitVec 8) : (s.setCfg c).res = s.res := rfl
@[simp] theorem State.setCfg_rssi (c : BitVec 8) : (s.setCfg c).rssi = s.rssi := rfl
@[simp] theorem State.setCfg_pcw (c : BitVec 8) : (s.setCfg c).pcw = s.pcw := rfl
@[simp] theorem State.setCfg_errcode (c : BitVec 8) : (s.setCfg c).errcode = s.errcode := rfl
@[simp] theorem State.setCfg_csr (c : BitVec 8) : (s.setCfg c).csr = s.csr := rfl
@[simp] theorem State.setCfg_wf (c : BitVec 8) : (s.setCfg c).wf = s.wf := rfl
@[simp] theorem State.setCfg_flg (c : BitVec 8) : (s.setCfg c).flg = s.flg := rfl
@[simp] theorem State.setCfg_cfg (c : BitVec 8) : (s.setCfg c).cfg = c := rfl
@[simp] theorem State.setCfg_config (c : BitVec 8) : (s.setCfg c).config = s.config := rfl
@[simp] theorem State.setCfg_script (c : BitVec 8) : (s.setCfg c).script = s.script := rfl
@[simp] theorem State.setCfg_freeCount (c : BitVec 8) : (s.setCfg c).freeCount = s.freeCount := rfl

@[simp] theorem State.setIlen_ibuf (n : Nat) : (s.setIlen n).ibuf = s.ibuf := rfl
@[simp] theorem State.setIlen_ilen (n : Nat) : (s.setIlen n).ilen = n := rfl
@[simp] theorem State.setIlen_obuf (n : Nat) : (s.setIlen n).obuf = s.obuf := rfl
@[simp] theorem State.setIlen_olen (n : Nat) : (s.setIlen n).olen = s.olen := rfl
@[simp] theorem State.setIlen_res (n : Nat) : (s.setIlen n).res = s.res := rfl
@[simp] theorem State.setIlen_rssi (n : Nat) : (s.setIlen n).rssi = s.rssi := rfl
@[simp] theorem State.setIlen_pcw (n : Nat) : (s.setIlen n).pcw = s.pcw := rfl
@[simp] theorem State.setIlen_errcode (n : Nat) : (s.setIlen n).errcode = s.errcode := rfl
@[simp] theorem State.setIlen_csr (n : Nat) : (s.setIlen n).csr = s.csr := rfl
@[simp] theorem State.setIlen_wf (n : Nat) : (s.setIlen n).wf = s.wf := rfl
@[simp] theorem State.setIlen_flg (n : Nat) : (s.setIlen n).flg = s.flg := rfl
@[simp] theorem State.setIlen_cfg (n : Nat) : (s.setIlen n).cfg = s.cfg := rfl
@[simp] theorem State.setIlen_config (n : Nat) : (s.setIlen n).config = s.config := rfl
@[simp] theorem State.setIlen_script (n : Nat) : (s.setIlen n).script = s.script := rfl
@[simp] theorem State.setIlen_freeCount (n : Nat) : (s.setIlen n).freeCount = s.freeCount := rfl

@[simp] theorem State.pushInput_ibuf (x : Byte) : (s.pushInput x).ibuf = Memory.write s.ibuf s.ilen x := rfl
@[simp] theorem State.pushInput_ilen (x : Byte) : (s.pushInput x).ilen = s.ilen + 1 := rfl
@[simp] theorem State.pushInput_obuf (x : Byte) : (s.pushInput x).obuf = s.obuf := rfl
@[simp] theorem State.pushInput_olen (x : Byte) : (s.pushInput x).olen = s.olen := rfl
@[simp] theorem State.pushInput_res (x : Byte) : (s.pushInput x).res = s.res := rfl
@[simp] theorem State.pushInput_rssi (x : Byte) : (s.pushInput x).rssi = s.rssi := rfl
@[simp] theorem State.pushInput_pcw (x : Byte) : (s.pushInput x).pcw = s.pcw := rfl
@[simp] theorem State.pushInput_errcode (x : Byte) : (s.pushInput x).errcode = s.errcode := rfl
@[simp] theorem State.pushInput_csr (x : Byte) : (s.pushInput x).csr = s.csr := rfl
@[simp] theorem State.pushInput_wf (x : Byte) : (s.pushInput x).wf = s.wf := rfl
@[simp] theorem State.pushInput_flg (x : Byte) : (s.pushInput x).flg = s.flg := rfl
@[simp] theorem State.pushInput_cfg (x : Byte) : (s.pushInput x).cfg = s.cfg := rfl
@[simp] theorem State.pushInput_config (x : Byte) : (s.pushInput x).config = s.config := rfl
@[simp] theorem State.pushInput_script (x : Byte) : (s.pushInput x).script = s.script := rfl
@[simp] theorem State.pushInput_freeCount (x : Byte) : (s.pushInput x).freeCount = s.freeCount := rfl

@[simp] theorem State.setOutput_ibuf (bs : List Byte) : (s.setOutput bs).ibuf = s.ibuf := rfl
@[simp] theorem State.setOutput_ilen (bs : List Byte) : (s.setOutput bs).ilen = s.ilen := rfl
@[simp] theorem State.setOutput_obuf (bs : List Byte) : (s.setOutput bs).obuf = Memory.writeSeq s.obuf 0 bs := rfl
@[simp] theorem State.setOutput_olen (bs : List Byte) : (s.setOutput bs).olen = bs.length := rfl
@[simp] theorem State.setOutput_res (bs : List Byte) : (s.setOutput bs).res = s.res := rfl
@[simp] theorem State.setOutput_rssi (bs : List Byte) : (s.setOutput bs).rssi = s.rssi := rfl
@[simp] theorem State.setOutput_pcw (bs : List Byte) : (s.setOutput bs).pcw = s.pcw := rfl
@[simp] theorem State.setOutput_errcode (bs : List Byte) : (s.setOutput bs).errcode = s.errcode := rfl
@[simp] theorem State.setOutput_csr (bs : List Byte) : (s.setOutput bs).csr = s.csr := rfl
@[simp] theorem State.setOutput_wf (bs : List Byte) : (s.setOutput bs).wf = s.wf := rfl
@[simp] theorem State.setOutput_flg (bs : List Byte) : (s.setOutput bs).flg = s.flg := rfl
@[simp] theorem State.setOutput_cfg (bs : List Byte) : (s.setOutput bs).cfg = s.cfg := rfl
@[simp] theorem State.setOutput_config (bs : List Byte) : (s.setOutput bs).config = s.config := rfl
@[simp] theorem State.setOutput_script (bs : List Byte) : (s.setOutput bs).script = s.script := rfl
@[simp] theorem State.setOutput_freeCount (bs : List Byte) : (s.setOutput bs).freeCount = s.freeCount := rfl

@[simp] theorem State.setScript_ibuf (es : List HostEvent) : (s.setScript es).ibuf = s.ibuf := rfl
@[simp] theorem State.setScript_ilen (es : List HostEvent) : (s.setScript es).ilen = s.ilen := rfl
@[simp] theorem State.setScript_obuf (es : List HostEvent) : (s.setScript es).obuf = s.obuf := rfl
@[simp] theorem State.setScript_olen (es : List HostEvent) : (s.setScript es).olen = s.olen := rfl
@[simp] theorem State.setScript_res (es : List HostEvent) : (s.setScript es).res = s.res := rfl
@[simp] theorem State.setScript_rssi (es : List HostEvent) : (s.setScript es).rssi = s.rssi := rfl
@[simp] theorem State.setScript_pcw (es : List HostEvent) : (s.setScript es).pcw = s.pcw := rfl
@[simp] theorem State.setScript_errcode (es : List HostEvent) : (s.setScript es).errcode = s.errcode := rfl
@[simp] theorem State.setScript_csr (es : List HostEvent) : (s.setScript es).csr = s.csr := rfl
@[simp] theorem State.setScript_wf (es : List HostEvent) : (s.setScript es).wf = s.wf := rfl
@[simp] theorem State.setScript_flg (es : List HostEvent) : (s.setScript es).flg = s.flg := rfl
@[simp] theorem State.setScript_cfg (es : List HostEvent) : (s.setScript es).cfg = s.cfg := rfl
@[simp] theorem State.setScript_config (es : List HostEvent) : (s.setScript es).config = s.config := rfl
@[simp] theorem State.setScript_script (es : List HostEvent) : (s.setScript es).script = es := rfl
@[simp] theorem State.setScript_freeCount (es : List HostEvent) : (s.setScript es).freeCount = s.freeCount := rfl

@[simp] theorem State.placeInput_ibuf (bs : List Byte) : (s.placeInput bs).ibuf = Memory.writeSeq s.ibuf 0 bs := rfl
@[simp] theorem State.placeInput_ilen (bs : List Byte) : (s.placeInput bs).ilen = bs.length := rfl
@[simp] theorem State.placeInput_obuf (bs : List Byte) : (s.placeInput bs).obuf = s.obuf := rfl
@[simp] theorem State.placeInput_olen (bs : List Byte) : (s.placeInput bs).olen = s.olen := rfl
@[simp] theorem State.placeInput_res (bs : List Byte) : (s.placeInput bs).res = s.res := rfl
@[simp] theorem State.placeInput_rssi (bs : List Byte) : (s.placeInput bs).rssi = s.rssi := rfl
@[simp] theorem State.placeInput_pcw (bs : List Byte) : (s.placeInput bs).pcw = s.pcw := rfl
@[simp] theorem State.placeInput_errcode (bs : List Byte) : (s.placeInput bs).errcode = s.errcode := rfl
@[simp] theorem State.placeInput_csr (bs : List Byte) : (s.placeInput bs).csr = s.csr := rfl
@[simp] theorem State.placeInput_wf (bs : List Byte) : (s.placeInput bs).wf = s.wf := rfl
@[simp] theorem State.placeInput_flg (bs : List Byte) : (s.placeInput bs).flg = s.flg := rfl
@[simp] theorem State.placeInput_cfg (bs : List Byte) : (s.placeInput bs).cfg = s.cfg := rfl
@[simp] theorem State.placeInput_config (bs : List Byte) : (s.placeInput bs).config = s.config := rfl
@[simp] theorem State.placeInput_script (bs : List Byte) : (s.placeInput bs).script = s.script := rfl
@[simp] theorem State.placeInput_freeCount (bs : List Byte) : (s.placeInput bs).freeCount = s.freeCount := rfl

@[simp] theorem State.placeCommand_ibuf (w : CommandWord) : (s.placeCommand w).ibuf = s.ibuf := rfl
@[simp] theorem State.placeCommand_ilen (w : CommandWord) : (s.placeCommand w).ilen = s.ilen := rfl
@[simp] theorem State.placeCommand_obuf (w : CommandWord) : (s.placeCommand w).obuf = s.obuf := rfl
@[simp] theorem State.placeCommand_olen (w : CommandWord) : (s.placeCommand w).olen = s.olen := rfl
@[simp] theorem State.placeCommand_res (w : CommandWord) : (s.placeCommand w).res = s.res := rfl
@[simp] theorem State.placeCommand_rssi (w : CommandWord) : (s.placeCommand w).rssi = s.rssi := rfl
@[simp] theorem State.placeCommand_pcw (w : CommandWord) : (s.placeCommand w).pcw = s.pcw := rfl
@[simp] theorem State.placeCommand_errcode (w : CommandWord) : (s.placeCommand w).errcode = s.errcode := rfl
@[simp] theorem State.placeCommand_csr (w : CommandWord) : (s.placeCommand w).csr = s.csr := rfl
@[simp] theorem State.placeCommand_wf (w : CommandWord) : (s.placeCommand w).wf = s.wf := rfl
@[simp] theorem State.placeCommand_flg (w : CommandWord) : (s.placeCommand w).flg = s.flg := rfl
@[simp] theorem State.placeCommand_cfg (w : CommandWord) : (s.placeCommand w).cfg = s.cfg := rfl
@[simp] theorem State.placeCommand_config (w : CommandWord) : (s.placeCommand w).config = s.config := rfl
@[simp] theorem State.placeCommand_script (w : CommandWord) : (s.placeCommand w).script = .command w :: s.script := rfl
@[simp] theorem State.placeCommand_freeCount (w : CommandWord) : (s.placeCommand w).freeCount = s.freeCount := rfl

end Sys2Proof.Machine
end

