-- ==== Sys2Proof/Laws/Memory.lean ====
section
/-! SUPPORT. The laws of a buffer: read after write, the canonical form, and byte sequences in and out of it. -/

namespace Sys2Proof.Machine

@[simp] theorem Memory.read_nil (i : Nat) : Memory.read [] i = none := rfl

theorem Memory.read_write (m : Memory) (i j : Nat) (x : Byte) :
    Memory.read (Memory.write m i x) j = if j = i then some x else Memory.read m j := by
  induction m with
  | nil => simp [Memory.write, Memory.read]
  | cons e m ih =>
    obtain ⟨k, v⟩ := e
    simp only [Memory.write]
    split
    · simp [Memory.read]
    · split
      · rename_i h; subst h; simp only [Memory.read]; split <;> simp_all
      · simp only [Memory.read, ih]
        split <;> split <;> simp_all

@[simp] theorem Memory.read_write_same (m : Memory) (i : Nat) (x : Byte) :
    Memory.read (Memory.write m i x) i = some x := by simp [Memory.read_write]

theorem Memory.read_write_other (m : Memory) {i j : Nat} (x : Byte) (h : j ≠ i) :
    Memory.read (Memory.write m i x) j = Memory.read m j := by simp [Memory.read_write, h]

theorem Memory.mem_write (m : Memory) (i : Nat) (x : Byte) (e : Host.Cell)
    (h : e ∈ Memory.write m i x) : e = (i, x) ∨ e ∈ m := by
  induction m with
  | nil => simpa [Memory.write] using h
  | cons d m ih =>
    obtain ⟨k, v⟩ := d
    simp only [Memory.write] at h
    split at h
    · simpa using h
    · split at h
      · simp only [List.mem_cons] at h ⊢; tauto
      · simp only [List.mem_cons] at h ⊢
        rcases h with h | h
        · tauto
        · rcases ih h with h | h <;> tauto

theorem Memory.wf_cons (e : Host.Cell) (m : Memory) :
    Memory.wf (e :: m) = true ↔ (∀ d ∈ m.head?, e.1 < d.1) ∧ Memory.wf m = true := by
  cases m with
  | nil => simp [Memory.wf]
  | cons d m => simp [Memory.wf]

theorem Memory.wf_write (m : Memory) (i : Nat) (x : Byte) (h : Memory.wf m = true) :
    Memory.wf (Memory.write m i x) = true := by
  induction m with
  | nil => rfl
  | cons e m ih =>
    obtain ⟨k, v⟩ := e
    rw [Memory.wf_cons] at h
    simp only [Memory.write]
    split
    · rename_i hlt; rw [Memory.wf_cons]; simpa [Memory.wf_cons, hlt] using h
    · split
      · rename_i hk; rw [Memory.wf_cons]; subst hk; exact h
      · rw [Memory.wf_cons]
        refine ⟨?_, ih h.2⟩
        intro d hd
        cases m with
        | nil => simp [Memory.write] at hd; subst hd; simp; omega
        | cons e2 m2 =>
          obtain ⟨k2, v2⟩ := e2
          have h1 : k < k2 := h.1 _ rfl
          simp only [Memory.write] at hd
          split at hd
          · simp at hd; subst hd; simp; omega
          · split at hd
            · simp at hd; subst hd; simp; omega
            · simp at hd; subst hd; exact h1

theorem Memory.read_writeSeq (m : Memory) (i : Nat) (xs : List Byte) (j : Nat) :
    Memory.read (Memory.writeSeq m i xs) j =
      if h : i ≤ j ∧ j < i + xs.length then some (xs[j - i]'(by omega)) else Memory.read m j := by
  induction xs generalizing m i with
  | nil => simp [Memory.writeSeq]
  | cons x xs ih =>
    rw [Memory.writeSeq, ih]
    simp only [List.length_cons]
    by_cases h : i = j
    · subst h; simp
    · by_cases h2 : i ≤ j ∧ j < i + (xs.length + 1)
      · rw [dif_pos (by omega), dif_pos h2]
        congr 1
        rw [List.getElem_cons, dif_neg (by omega)]
        congr 1
      · rw [dif_neg (by omega), dif_neg h2, Memory.read_write_other _ _ (by omega)]

theorem Memory.wf_writeSeq (m : Memory) (i : Nat) (xs : List Byte) (h : Memory.wf m = true) :
    Memory.wf (Memory.writeSeq m i xs) = true := by
  induction xs generalizing m i with
  | nil => exact h
  | cons x xs ih => exact ih _ _ (Memory.wf_write _ _ _ h)

theorem Memory.mem_writeSeq (m : Memory) (i : Nat) (xs : List Byte) (e : Host.Cell)
    (h : e ∈ Memory.writeSeq m i xs) : (i ≤ e.1 ∧ e.1 < i + xs.length) ∨ e ∈ m := by
  induction xs generalizing m i with
  | nil => exact .inr h
  | cons x xs ih =>
    simp only [List.length_cons]
    rcases ih _ _ h with h | h
    · left; omega
    · rcases Memory.mem_write _ _ _ _ h with h | h
      · left; subst h; simp
      · exact .inr h

/-- A listed byte is what the canonical form reads at its index. -/
theorem Memory.read_of_lt_head (m : Memory) (i : Nat) (h : ∀ d ∈ m.head?, i < d.1) (hw : Memory.wf m = true) :
    Memory.read m i = none := by
  induction m with
  | nil => rfl
  | cons e m ih =>
    obtain ⟨k, v⟩ := e
    have hk : i < k := h _ rfl
    rw [Memory.wf_cons] at hw
    rw [Memory.read, if_neg (by omega)]
    refine ih (fun d hd => ?_) hw.2
    have := hw.1 d hd
    simp at this; omega

/-- Equal memories are equal data: two buffers in canonical form that read alike are the same list. -/
theorem Memory.ext_read (m n : Memory) (hm : Memory.wf m = true) (hn : Memory.wf n = true)
    (h : ∀ i, Memory.read m i = Memory.read n i) : m = n := by
  induction m generalizing n with
  | nil =>
    cases n with
    | nil => rfl
    | cons e n => have := h e.1; simp [Memory.read] at this
  | cons e m ih =>
    obtain ⟨k, v⟩ := e
    cases n with
    | nil => have := h k; simp [Memory.read] at this
    | cons d n =>
      obtain ⟨l, w⟩ := d
      rw [Memory.wf_cons] at hm hn
      have hkl : k = l := by
        rcases Nat.lt_trichotomy k l with hlt | heq | hgt
        · have h1 := h k
          rw [Memory.read_of_lt_head ((l, w) :: n) k (by simpa using hlt) (by rw [Memory.wf_cons]; exact hn)] at h1
          simp [Memory.read] at h1
        · exact heq
        · have h1 := h l
          rw [Memory.read_of_lt_head ((k, v) :: m) l (by simpa using hgt) (by rw [Memory.wf_cons]; exact hm)] at h1
          simp [Memory.read] at h1
      subst hkl
      have hv : v = w := by have := h k; simpa [Memory.read] using this
      subst hv
      congr 1
      refine ih n hm.2 hn.2 fun i => ?_
      by_cases hi : i = k
      · subst hi
        rw [Memory.read_of_lt_head m i hm.1 hm.2, Memory.read_of_lt_head n i hn.1 hn.2]
      · have := h i
        simpa [Memory.read, hi] using this

/-! ## Bytes of a buffer -/

theorem bufferByte_of_lt {cap i : Nat} (u : Nat → Byte) (m : Memory) (h : i < cap) :
    bufferByte cap u m i = .ok ((Memory.read m i).getD (u i)) := if_pos h

theorem bufferByte_of_ge {cap i : Nat} (u : Nat → Byte) (m : Memory) (h : cap ≤ i) :
    bufferByte cap u m i = .error .bufferIndexOutOfRange := if_neg (Nat.not_lt.mpr h)

/-- The bytes from `i` on are `xs` exactly where each of them is in the buffer and is the buffer's byte there. -/
theorem bufferSeq_eq_ok (cap : Nat) (u : Nat → Byte) (m : Memory) (i n : Nat) (xs : List Byte) :
    bufferSeq cap u m i n = .ok xs ↔
      xs.length = n ∧ ∀ j (h : j < xs.length), i + j < cap ∧ (Memory.read m (i + j)).getD (u (i + j)) = xs[j] := by
  induction n generalizing i xs with
  | zero =>
    constructor
    · intro h; simp [bufferSeq] at h; subst h; simp
    · rintro ⟨h, -⟩; simp [List.length_eq_zero_iff.mp h, bufferSeq]
  | succ n ih =>
    constructor
    · intro h
      unfold bufferSeq at h
      split at h
      · cases h
      · rename_i x hx
        split at h
        · cases h
        · rename_i ys hys
          cases h
          obtain ⟨hl, hr⟩ := (ih _ _).mp hys
          refine ⟨by simp [hl], fun j hj => ?_⟩
          cases j with
          | zero =>
            unfold bufferByte at hx
            split at hx
            · cases hx; exact ⟨by omega, rfl⟩
            · cases hx
          | succ j =>
            have := hr j (by simpa using hj)
            rw [show i + 1 + j = i + (j + 1) by omega] at this
            simpa using this
    · rintro ⟨hl, hr⟩
      cases xs with
      | nil => simp at hl
      | cons x xs =>
        have h0 := hr 0 (by simp)
        have hx : bufferByte cap u m i = .ok x := by
          rw [bufferByte_of_lt u m (by simpa using h0.1)]
          exact congrArg Except.ok h0.2
        have hs : bufferSeq cap u m (i + 1) n = .ok xs := by
          refine (ih _ _).mpr ⟨by simpa using hl, fun j hj => ?_⟩
          have := hr (j + 1) (by simpa using hj)
          rw [show i + (j + 1) = i + 1 + j by omega] at this
          simpa using this
        simp [bufferSeq, hx, hs]

/-- A sequence the buffer holds fits the buffer. -/
theorem bufferSeq_length_le {cap : Nat} {u : Nat → Byte} {m : Memory} {n : Nat} {b : List Byte}
    (h : bufferSeq cap u m 0 n = .ok b) : b.length ≤ cap := by
  obtain ⟨-, hr⟩ := (bufferSeq_eq_ok _ _ _ _ _ _).mp h
  cases hb : b.length with
  | zero => omega
  | succ k =>
    have := (hr k (by omega)).1
    omega

/-- A sequence that fits the buffer exists: every byte of a buffer has a value. -/
theorem bufferSeq_of_le {cap n : Nat} (u : Nat → Byte) (m : Memory) (hn : n ≤ cap) :
    ∃ b, bufferSeq cap u m 0 n = .ok b := by
  refine ⟨List.ofFn (n := n) fun i => (Memory.read m i).getD (u i), (bufferSeq_eq_ok _ _ _ _ _ _).mpr ⟨by simp, ?_⟩⟩
  intro j hj
  exact ⟨by simp at hj; omega, by simp⟩

/-- A sequence all of whose bytes were written does not depend on what unwritten bytes hold. -/
theorem bufferSeq_of_holds {m : Memory} {n cap : Nat} (h : Memory.Holds m n cap) (hn : n ≤ cap) (u v : Nat → Byte) :
    bufferSeq cap u m 0 n = bufferSeq cap v m 0 n := by
  obtain ⟨b, hb⟩ := bufferSeq_of_le u m hn
  rw [hb, eq_comm, bufferSeq_eq_ok]
  obtain ⟨hl, hr⟩ := (bufferSeq_eq_ok _ _ _ _ _ _).mp hb
  refine ⟨hl, fun j hj => ⟨(hr j hj).1, ?_⟩⟩
  obtain ⟨x, hx⟩ := Option.isSome_iff_exists.mp (h.1 j (by omega))
  rw [← (hr j hj).2]
  simp [hx]

theorem State.input_length {s : State} {b : List Byte} (h : s.input = .ok b) : b.length = s.ilen :=
  ((bufferSeq_eq_ok _ _ _ _ _ _).mp h).1

theorem State.input_le_cap {s : State} {b : List Byte} (h : s.input = .ok b) : b.length ≤ s.config.bufCap :=
  bufferSeq_length_le h

theorem State.exists_input_of_le {s : State} (h : s.ilen ≤ s.config.bufCap) : ∃ b, s.input = .ok b :=
  bufferSeq_of_le _ _ h

/-- The input sequence exists in every state that meets the invariant. -/
theorem State.exists_input {s : State} (h : s.Inv) : ∃ b, s.input = .ok b := State.exists_input_of_le h.2.1

/-- The input sequence is made of written bytes in every state that meets the invariant. -/
theorem State.input_of_inv {s : State} (h : s.Inv) (u : Nat → Byte) :
    s.input = bufferSeq s.config.bufCap u s.ibuf 0 s.ilen := bufferSeq_of_holds h.2.2.2.2.2.1 h.2.1 _ _

/-- The output sequence is made of written bytes in every state that meets the invariant. -/
theorem State.output_of_inv {s : State} (h : s.Inv) (u : Nat → Byte) :
    s.output = bufferSeq s.config.bufCap u s.obuf 0 s.olen := bufferSeq_of_holds h.2.2.2.2.2.2.1 h.2.2.1 _ _

theorem State.ibufByte_of_lt {s : State} {i : Nat} (h : i < s.config.bufCap) :
    s.ibufByte i = .ok ((Memory.read s.ibuf i).getD (s.unwritten .ibuf i)) := bufferByte_of_lt _ _ h

theorem State.obufByte_of_lt {s : State} {i : Nat} (h : i < s.config.bufCap) :
    s.obufByte i = .ok ((Memory.read s.obuf i).getD (s.unwritten .obuf i)) := bufferByte_of_lt _ _ h

/-- A byte of the output sequence is the byte of OBUF at its index. -/
theorem State.obufByte_of_output {s : State} {o : List Byte} (h : s.output = .ok o) {i : Nat} (hi : i < o.length) :
    s.obufByte i = .ok o[i] := by
  have := ((bufferSeq_eq_ok _ _ _ _ _ _).mp h).2 i hi
  simp only [Nat.zero_add] at this
  rw [State.obufByte_of_lt this.1, this.2]

/-- A pushed byte is the byte of IBUF at the old ILEN, and every other byte is as before. -/
theorem State.pushInput_ibufByte (s : State) (x : Byte) (a : Nat) :
    (s.pushInput x).ibufByte a = if a = s.ilen ∧ a < s.config.bufCap then .ok x else s.ibufByte a := by
  by_cases ha : a < s.config.bufCap
  · rw [State.ibufByte_of_lt ha, State.ibufByte_of_lt (s := s.pushInput x) ha, State.pushInput_ibuf, Memory.read_write]
    by_cases h : a = s.ilen <;> simp [h, ha, State.unwritten]
    intro h2; omega
  · simp only [ha, and_false, if_false]
    exact (bufferByte_of_ge _ _ (Nat.not_lt.mp ha)).trans (bufferByte_of_ge _ _ (Nat.not_lt.mp ha)).symm

/-- A byte pushed into a buffer that is not full lands at the end of the input sequence. -/
theorem State.pushInput_input {s : State} {b : List Byte} (x : Byte) (h : s.input = .ok b)
    (hc : s.ilen < s.config.bufCap) : (s.pushInput x).input = .ok (b ++ [x]) := by
  have hl := State.input_length h
  obtain ⟨-, hr⟩ := (bufferSeq_eq_ok _ _ _ _ _ _).mp h
  refine (bufferSeq_eq_ok _ _ _ _ _ _).mpr ⟨by simp [hl], fun j hj => ?_⟩
  simp only [State.pushInput_config, State.pushInput_ibuf, Nat.zero_add] at *
  simp only [List.length_append, List.length_cons, List.length_nil] at hj
  refine ⟨by omega, ?_⟩
  by_cases hj2 : j = s.ilen
  · subst hj2; simp [← hl]
  · rw [Memory.read_write_other _ _ hj2, List.getElem_append_left (by omega)]
    exact (hr j (by omega)).2

/-- A result written to OBUF is the output sequence. -/
theorem State.setOutput_output (s : State) (bs : List Byte) (h : bs.length ≤ s.config.bufCap) :
    (s.setOutput bs).output = .ok bs := by
  refine (bufferSeq_eq_ok _ _ _ _ _ _).mpr ⟨rfl, fun j hj => ?_⟩
  simp only [State.setOutput_config, State.setOutput_obuf, Nat.zero_add]
  refine ⟨by omega, ?_⟩
  rw [Memory.read_writeSeq, dif_pos (by omega)]
  simp

/-- Bytes of OBUF beyond a result stay as they were. -/
theorem State.setOutput_obufByte_beyond (s : State) (bs : List Byte) {a : Nat} (h : bs.length ≤ a) :
    (s.setOutput bs).obufByte a = s.obufByte a := by
  simp only [State.obufByte, bufferByte, State.setOutput_config, State.setOutput_obuf, State.unwritten,
    State.setOutput_freeCount, Memory.read_writeSeq]
  rw [dif_neg (by omega)]

/-- An input placed whole is the input sequence. -/
theorem State.placeInput_input (s : State) (bs : List Byte) (h : bs.length ≤ s.config.bufCap) :
    (s.placeInput bs).input = .ok bs := by
  refine (bufferSeq_eq_ok _ _ _ _ _ _).mpr ⟨rfl, fun j hj => ⟨by simp only [State.placeInput]; omega, ?_⟩⟩
  simp only [State.placeInput, Nat.zero_add]
  rw [Memory.read_writeSeq, dif_pos (by omega)]
  simp

end Sys2Proof.Machine
end

