-- ==== Sys2Proof/Laws/Units.lean ====
section
/-! SUPPORT. One lemma per functional unit in the words of the claims (Sys2Proof/Safety.lean): the frame a sequence
starts with, the checksum over it, verify, wf, pext and the decoder's paths. -/

namespace Sys2Proof.Machine

/-! ## Bytes and the length field -/

theorem byteAt_eq_getElem {b : List Byte} {i : Nat} (h : i < b.length) : byteAt b i = b[i] := by
  simp [byteAt, h]

theorem lenField_lt (b : List Byte) : lenField b < 65536 := by
  have h1 := (byteAt b 3).isLt
  have h2 := (byteAt b 4).isLt
  unfold lenField; omega

theorem payloadLength_eq (b : List Byte) (h : 5 ≤ b.length) : payloadLength b h = lenField b := by
  simp only [payloadLength, u16be, lenField, byteAt_eq_getElem (show 3 < b.length by omega),
    byteAt_eq_getElem (show 4 < b.length by omega)]
  omega

theorem slice_eq (s : List Byte) (a e : Nat) (h : a ≤ e ∧ e ≤ s.length) : slice s a e h = (s.drop a).take (e - a) := by
  rw [slice, List.drop_take]

theorem length_slice (s : List Byte) (a e : Nat) (h : a ≤ e ∧ e ≤ s.length) : (slice s a e h).length = e - a := by
  simp [slice_eq]; omega

theorem hi8_lenField (b : List Byte) : hi8 (lenField b) = byteAt b 3 := by
  have h2 := (byteAt b 4).isLt
  apply BitVec.eq_of_toNat_eq
  simp only [hi8, lenField, BitVec.toNat_ofNat]
  have h1 := (byteAt b 3).isLt
  omega

theorem lo8_lenField (b : List Byte) : lo8 (lenField b) = byteAt b 4 := by
  have h2 := (byteAt b 4).isLt
  apply BitVec.eq_of_toNat_eq
  simp only [lo8, lenField, BitVec.toNat_ofNat]
  omega

/-- Bytes appended to a sequence leave the bytes it has. -/
theorem byteAt_append {b x : List Byte} {i : Nat} (h : i < b.length) : byteAt (b ++ x) i = byteAt b i := by
  simp only [byteAt, List.getD_eq_getElem?_getD, List.getElem?_append_left h]

theorem lenField_append {b x : List Byte} (h : 5 ≤ b.length) : lenField (b ++ x) = lenField b := by
  simp only [lenField, byteAt_append (show 3 < b.length by omega), byteAt_append (show 4 < b.length by omega)]

theorem complete_append {b : List Byte} (x : List Byte) (h : Complete b) : Complete (b ++ x) := by
  have h7 := h.1
  refine ⟨by simp; omega, ?_⟩
  rw [lenField_append (by omega)]
  have := h.2
  simp only [List.length_append]; omega

/-! ## The frame at index 0 -/

/-- The frame a complete sequence starts with, field by field (30_encoding.md rule R49). -/
def frameOf (b : List Byte) : Frame where
  header := byteAt b 0
  frameType := byteAt b 1
  command := byteAt b 2
  payloadLength := BitVec.ofNat 16 (lenField b)
  payload := (b.drop 5).take (lenField b)
  checksum := checksumByte b
  terminator := byteAt b (6 + lenField b)

theorem frameAt_of_complete {b : List Byte} (h : Complete b) : frameAt b = some (frameOf b) := by
  have h7 := h.1
  have hc := h.2
  unfold frameAt
  rw [dif_pos h7, dif_pos (by rw [payloadLength_eq]; exact hc)]
  simp only [payloadLength_eq, slice_eq, frameOf, checksumByte]
  simp only [byteAt_eq_getElem (show 0 < b.length by omega), byteAt_eq_getElem (show 1 < b.length by omega),
    byteAt_eq_getElem (show 2 < b.length by omega), byteAt_eq_getElem (show 5 + lenField b < b.length by omega),
    byteAt_eq_getElem (show 6 + lenField b < b.length by omega)]
  simp

theorem frameAt_of_not_complete {b : List Byte} (h : ¬ Complete b) : frameAt b = none := by
  unfold frameAt
  split
  · rename_i h7
    rw [dif_neg]
    rw [payloadLength_eq]
    exact fun hc => h ⟨h7, hc⟩
  · rfl

theorem frameAt_isSome (b : List Byte) : (frameAt b).isSome = decide (Complete b) := by
  by_cases h : Complete b
  · simp [frameAt_of_complete h, h]
  · simp [frameAt_of_not_complete h, h]

theorem frameOf_span {b : List Byte} (h : Complete b) : (frameOf b).span = (b.drop 1).take (4 + lenField b) := by
  have h7 := h.1
  have hl : (BitVec.ofNat 16 (lenField b)).toNat = lenField b := by
    have := lenField_lt b
    simp; omega
  simp only [Frame.span, frameOf, hl, hi8_lenField, lo8_lenField]
  match b, h7 with
  | _ :: _ :: _ :: _ :: _ :: t, _ => simp [byteAt, Nat.add_comm 4]

/-! ## csum, verify, wf, pext -/

theorem csum_eq_sum256 {cfg : Config} {s : List Byte} (h : cfg.csumMinSpan ≤ s.length) : csum cfg s = sum256 s := by
  rw [csum, if_neg (by omega)]; rfl

theorem csum_span {cfg : Config} {b : List Byte} (hm : cfg.csumMinSpan = 4) (h : Complete b) :
    csum cfg (frameOf b).span = spanSum b := by
  rw [frameOf_span h, csum_eq_sum256]
  · rfl
  · have := h.2
    simp; omega

theorem rxCsum_of_complete {cfg : Config} {b : List Byte} (hm : cfg.csumMinSpan = 4) (h : Complete b) :
    rxCsum cfg b = some (spanSum b) := by
  simp [rxCsum, frameAt_of_complete h, csum_span hm h]

theorem rxCsum_of_not_complete {cfg : Config} {b : List Byte} (h : ¬ Complete b) : rxCsum cfg b = none := by
  simp [rxCsum, frameAt_of_not_complete h]

theorem verify_tooShort {cfg : Config} {b : List Byte} (h : b.length < 7) : verify cfg b = .error .tooShort := by
  simp [verify, h]

theorem verify_incomplete {cfg : Config} {b : List Byte} (h7 : 7 ≤ b.length) (h : ¬ Complete b) :
    verify cfg b = .error .incompletePayload := by
  simp [verify, Nat.not_lt.mpr h7, frameAt_of_not_complete h]

theorem verify_of_complete {cfg : Config} {b : List Byte} (hm : cfg.csumMinSpan = 4) (h : Complete b) :
    verify cfg b = if checksumByte b = spanSum b then .ok (spanSum b) else .error .badChecksum := by
  simp only [verify, Nat.not_lt.mpr h.1, frameAt_of_complete h, csum_span hm h, if_false]
  by_cases hk : checksumByte b = spanSum b
  · rw [if_pos hk, if_neg (by simpa [frameOf] using hk)]
  · rw [if_neg hk, if_pos (by simpa [frameOf] using hk)]

theorem wfClauses_eq {cfg : Config} {b : List Byte} (hm : cfg.csumMinSpan = 4) :
    wfClauses cfg b =
      { h := decide (b.head? = some 0xBB#8)
        l := decide (Complete b)
        c := decide (Complete b ∧ checksumByte b = spanSum b)
        t := decide (Complete b ∧ byteAt b (6 + lenField b) = 0x7E#8) } := by
  by_cases h : Complete b
  · simp only [wfClauses, frameAt_of_complete h, csum_span hm h, Option.any_some]
    simp [h, frameOf, header, terminator, Bool.beq_eq_decide_eq]
  · simp [wfClauses, frameAt_of_not_complete h, h, header, Bool.beq_eq_decide_eq]

theorem pext_tooShort {b : List Byte} (h : b.length < 7) : pext b = .error .tooShort := by simp [pext, h]

theorem head?_eq_byteAt {b : List Byte} (h : 0 < b.length) : b.head? = some (byteAt b 0) := by
  cases b with
  | nil => simp at h
  | cons x b => rfl

theorem pext_badHeader {b : List Byte} (h7 : 7 ≤ b.length) (h : byteAt b 0 ≠ 0xBB#8) : pext b = .error .badHeader := by
  simp [pext, Nat.not_lt.mpr h7, head?_eq_byteAt (show 0 < b.length by omega), h]

theorem pext_incomplete {b : List Byte} (h7 : 7 ≤ b.length) (h : byteAt b 0 = 0xBB#8) (hc : ¬ Complete b) :
    pext b = .error .incompletePayload := by
  simp [pext, Nat.not_lt.mpr h7, head?_eq_byteAt (show 0 < b.length by omega), h, frameAt_of_not_complete hc]

theorem pext_of_complete {b : List Byte} (h : byteAt b 0 = 0xBB#8) (hc : Complete b) :
    pext b = .ok ((b.drop 5).take (lenField b)) := by
  have h7 := hc.1
  simp [pext, Nat.not_lt.mpr h7, head?_eq_byteAt (show 0 < b.length by omega), h, frameAt_of_complete hc, frameOf]

/-! ## enc -/

theorem byteSum_append (s t : List Byte) : byteSum (s ++ t) = byteSum s + byteSum t := by simp [byteSum]

theorem enc_eq_encodedFrame {cfg : Config} (hm : cfg.csumMinSpan = 4) (t c : Byte) (p : List Byte)
    (hp : p.length ≤ 65535) : enc cfg t c p = encodedFrame t c p := by
  have hk : encChecksum cfg t c p =
      BitVec.ofNat 8 (t.toNat + c.toNat + p.length / 256 + p.length % 256 + (p.map BitVec.toNat).sum) := by
    rw [encChecksum, csum_eq_sum256 (by simp [span]; omega)]
    simp only [sum256, span, hi8, lo8, List.map_append, List.map_cons, List.map_nil, List.sum_append, List.sum_cons,
      List.sum_nil, BitVec.toNat_ofNat]
    congr 1
    omega
  simp only [enc, encodedFrame, hk, span, hi8, lo8, header, terminator, List.cons_append, List.nil_append]

@[simp] theorem length_encodedFrame (t c : Byte) (p : List Byte) : (encodedFrame t c p).length = p.length + 7 := by
  simp [encodedFrame]

theorem lenField_encodedFrame (t c : Byte) (p x : List Byte) (hp : p.length ≤ 65535) :
    lenField (encodedFrame t c p ++ x) = p.length := by
  simp [lenField, encodedFrame, byteAt]
  omega

theorem complete_encodedFrame (t c : Byte) (p x : List Byte) (hp : p.length ≤ 65535) :
    Complete (encodedFrame t c p ++ x) := by
  refine ⟨by simp; omega, ?_⟩
  rw [lenField_encodedFrame t c p x hp]; simp; omega

/-! ## The decoder -/

theorem StartsWith.bytes {b : List Byte} {h t c : Byte} (hs : StartsWith b h t c) (h7 : 7 ≤ b.length) :
    b[0] = h ∧ b[1] = t ∧ b[2] = c := by
  match b, h7 with
  | x :: y :: z :: r, _ => simpa [StartsWith] using hs

theorem afterFloor_tooShort {path : DecodePath} {b : List Byte} (h : b.length < 7) :
    afterFloor path b = .error .tooShort := by simp [afterFloor, h]

theorem afterFloor_of_seven {path : DecodePath} {b : List Byte} (h : 7 ≤ b.length) : afterFloor path b = path b h := by
  simp [afterFloor, Nat.not_lt.mpr h]

theorem tagPath_incomplete {cfg : Config} {b : List Byte} (h7 : 7 ≤ b.length)
    (h : b.length < cfg.tagMinLen ∨ ¬ Complete b ∨ lenField b < 3) :
    tagPath cfg b h7 = .error .incompletePayload := by
  simp only [tagPath, payloadLength_eq]
  by_cases h1 : b.length < cfg.tagMinLen
  · simp [h1]
  · by_cases h2 : b.length < 5 + lenField b + 2
    · simp [h1, h2]
    · have hc : Complete b := ⟨h7, by omega⟩
      have h3 : lenField b < 3 := by tauto
      simp [h1, h2, h3]

theorem tagPath_event {cfg : Config} {b : List Byte} (h7 : 7 ≤ b.length) (h1 : cfg.tagMinLen ≤ b.length)
    (hc : Complete b) (h3 : 3 ≤ lenField b) :
    tagPath cfg b h7 =
      .ok (.tagDetected (byteAt b 5) (byteAt b 6 ++ byteAt b 7) ((b.drop 8).take (lenField b - 3))) := by
  have h2 := hc.2
  have e1 : ¬ b.length < cfg.tagMinLen := by omega
  have e2 : ¬ b.length < 5 + lenField b + 2 := by omega
  have e3 : ¬ lenField b < 3 := by omega
  have hpc : BitVec.ofNat 16 (u16be b[6] (b[7]'(by omega))) = byteAt b 6 ++ byteAt b 7 := by
    rw [byteAt_eq_getElem (show 6 < b.length by omega), byteAt_eq_getElem (show 7 < b.length by omega)]
    apply BitVec.eq_of_toNat_eq
    have := b[6].isLt
    have := (b[7]'(by omega)).isLt
    rw [BitVec.toNat_append, ← Nat.shiftLeft_add_eq_or_of_lt (by omega), Nat.shiftLeft_eq]
    simp only [u16be, BitVec.toNat_ofNat]
    omega
  simp only [tagPath, payloadLength_eq, e1, e2, e3, if_false, dif_neg, not_false_eq_true, slice_eq, hpc]
  rw [byteAt_eq_getElem (show 5 < b.length by omega)]
  simp

theorem shapePath_eq {cfg : Config} {b : List Byte} {h t c : Byte} (h7 : 7 ≤ b.length) (hs : StartsWith b h t c) :
    shapePath cfg b h7 =
      if h ≠ 0xBB#8 then .error .badHeader
      else if t = 0x01#8 then
        if c = 0xFF#8 then .ok (.errorReported (byteAt b 5)) else .ok .unrecognized
      else if t = 0x02#8 ∧ c = 0x22#8 then tagPath cfg b h7
      else .error .unknownShape := by
  obtain ⟨h0, h1, h2⟩ := hs.bytes h7
  simp only [shapePath, h0, h1, h2, header, typeResponse, cmdError, typeNotification, cmdInventory, badHeaderPath,
    errorReportPath, otherResponsePath, unknownShapePath, byteAt_eq_getElem (show 5 < b.length by omega)]

/-- The gate passes a failure through. -/
@[simp] theorem gate_error (cfg : Config) (ce : Bool) (b : List Byte) (f : DecodeFailure) :
    gate cfg ce b (.error f) = .error f := rfl

/-- What the gate makes of an event, for a sequence that has passed the length floor. -/
theorem gate_ok {cfg : Config} (hm : cfg.csumMinSpan = 4) (ce : Bool) {b : List Byte} (h7 : 7 ≤ b.length)
    (e : DecodedEvent) :
    gate cfg ce b (.ok e) =
      if ce = true then
        if Complete b then
          if checksumByte b = spanSum b then .ok e else .error .badChecksum
        else .error .incompletePayload
      else .ok e := by
  cases ce with
  | false => simp [gate]
  | true =>
    simp only [gate, if_true]
    by_cases hc : Complete b
    · rw [verify_of_complete hm hc]
      by_cases hk : checksumByte b = spanSum b
      · simp [hk, hc.1, hc.2]
      · simp [hk, hc.1, hc.2]
    · rw [verify_incomplete h7 hc, if_neg hc]

theorem complete_iff (b : List Byte) (h7 : 7 ≤ b.length) : Complete b ↔ ¬ b.length < 5 + lenField b + 2 :=
  ⟨fun h => by have := h.2; omega, fun h => ⟨h7, by omega⟩⟩

theorem startsWith_self {b : List Byte} (h7 : 7 ≤ b.length) :
    StartsWith b (byteAt b 0) (byteAt b 1) (byteAt b 2) := by
  match b, h7 with
  | x :: y :: z :: r, _ => simp [StartsWith, byteAt]

@[simp] theorem length_enc (cfg : Config) (t c : Byte) (p : List Byte) : (enc cfg t c p).length = p.length + 7 := by
  simp [enc, span]

theorem encodedFrame_bytes (t c : Byte) (p x : List Byte) :
    byteAt (encodedFrame t c p ++ x) 0 = 0xBB#8 ∧ byteAt (encodedFrame t c p ++ x) 1 = t ∧
    byteAt (encodedFrame t c p ++ x) 2 = c ∧ ((encodedFrame t c p ++ x).drop 5).take p.length = p ∧
    byteAt (encodedFrame t c p ++ x) (6 + p.length) = 0x7E#8 := by
  refine ⟨rfl, rfl, rfl, by simp [encodedFrame], ?_⟩
  rw [Nat.add_comm]
  simp [byteAt, encodedFrame]

/-- The accessor reads the same frame when bytes follow it. -/
theorem frameAt_append {b x : List Byte} {f : Frame} (h : frameAt b = some f) : frameAt (b ++ x) = some f := by
  by_cases hc : Complete b
  · have h7 := hc.1
    have h2 := hc.2
    rw [frameAt_of_complete hc] at h
    rw [frameAt_of_complete (complete_append x hc), ← h]
    have hl := lenField_append (x := x) (show 5 ≤ b.length by omega)
    simp only [frameOf, checksumByte, hl, byteAt_append (show 0 < b.length by omega),
      byteAt_append (show 1 < b.length by omega), byteAt_append (show 2 < b.length by omega),
      byteAt_append (show 5 + lenField b < b.length by omega), byteAt_append (show 6 + lenField b < b.length by omega)]
    rw [List.drop_append_of_le_length (by omega), List.take_append_of_le_length (by simp; omega)]
  · rw [frameAt_of_not_complete hc] at h
    cases h

end Sys2Proof.Machine
end

