-- ==== Sys2Proof/Laws/Ops.lean ====
section
/-! SUPPORT. What each shared operation can answer, once; and that each register write keeps the invariant. -/

namespace Sys2Proof.Machine

/-! ## Answers -/

theorem State.withInput_of_input {s : State} {b : List Byte} (h : s.input = .ok b) (k : List Byte → Answer) :
    s.withInput k = k b := by simp [State.withInput, h]

/-- An operation over the input answers a next state only through its input sequence. -/
theorem State.withInput_next {s t : State} {k : List Byte → Answer} (h : s.withInput k = .next t) :
    ∃ b, s.input = .ok b ∧ k b = .next t := by
  unfold State.withInput at h
  split at h
  · cases h
  · exact ⟨_, ‹_›, h⟩

theorem State.withOutput_of_le {s : State} {bs : List Byte} (h : bs.length ≤ s.config.bufCap) (k : State → Answer) :
    s.withOutput bs k = k (s.setOutput bs) := by simp [State.withOutput, h]

/-- A result is written only where it fits OBUF. -/
theorem State.withOutput_next {s t : State} {bs : List Byte} {k : State → Answer} (h : s.withOutput bs k = .next t) :
    bs.length ≤ s.config.bufCap ∧ k (s.setOutput bs) = .next t := by
  unfold State.withOutput at h
  split at h
  · exact ⟨‹_›, h⟩
  · cases h

@[simp] theorem resEvent_tagDetected (x : Byte) (pc : BitVec 16) (epc : List Byte) :
    resEvent (.tagDetected x pc epc) = 0xA0#8 := by change resWord true 1 0 = _; decide

@[simp] theorem resEvent_errorReported (x : Byte) : resEvent (.errorReported x) = 0xC0#8 := by
  change resWord true 2 0 = _; decide

@[simp] theorem resEvent_unrecognized : resEvent .unrecognized = 0xE0#8 := by decide

/-- A tag that fits OBUF is delivered (R92). -/
theorem State.deliver_tagDetected (s : State) (x : Byte) (pc : BitVec 16) {epc : List Byte}
    (h : epc.length ≤ s.config.bufCap) :
    s.deliver (.ok (.tagDetected x pc epc)) = .next (((s.setOutput epc).setTag x pc).setRes 0xA0#8) := by
  rw [State.deliver, State.withOutput_of_le h, resEvent_tagDetected]

theorem State.deliver_errorReported (s : State) (code : Byte) :
    s.deliver (.ok (.errorReported code)) = .next ((s.setErrcode code).setRes 0xC0#8) := by
  rw [State.deliver, resEvent_errorReported]

theorem State.deliver_unrecognized (s : State) : s.deliver (.ok .unrecognized) = .next (s.setRes 0xE0#8) := by
  rw [State.deliver, resEvent_unrecognized]

/-- Everything delivery can do: a tag into RSSI, PCW, OBUF, OLEN; a code into ERRCODE; RES always. -/
theorem State.deliver_next {s t : State} {r : Except DecodeFailure DecodedEvent} (h : s.deliver r = .next t) :
    (∃ x pc epc, r = .ok (.tagDetected x pc epc) ∧ epc.length ≤ s.config.bufCap ∧
      t = ((s.setOutput epc).setTag x pc).setRes 0xA0#8) ∨
    (∃ code, r = .ok (.errorReported code) ∧ t = (s.setErrcode code).setRes 0xC0#8) ∨
    (r = .ok .unrecognized ∧ t = s.setRes 0xE0#8) ∨
    (∃ f, r = .error f ∧ t = s.setRes (resFail (.decode f))) := by
  match r with
  | .ok (.tagDetected x pc epc) =>
    unfold State.deliver at h
    obtain ⟨hl, h⟩ := State.withOutput_next h
    cases h
    exact .inl ⟨x, pc, epc, rfl, hl, by rw [resEvent_tagDetected]⟩
  | .ok (.errorReported code) => cases h; exact .inr (.inl ⟨code, rfl, by rw [resEvent_errorReported]⟩)
  | .ok .unrecognized => cases h; exact .inr (.inr (.inl ⟨rfl, by rw [resEvent_unrecognized]⟩))
  | .error f => cases h; exact .inr (.inr (.inr ⟨f, rfl, rfl⟩))

/-- RES of a failure, by name. -/
theorem resFail_cases (f : DecodeFailure) :
    (f = .tooShort ∧ resFail (.decode f) = 0x01#8) ∨ (f = .badHeader ∧ resFail (.decode f) = 0x02#8) ∨
    (f = .incompletePayload ∧ resFail (.decode f) = 0x03#8) ∨ (f = .badChecksum ∧ resFail (.decode f) = 0x04#8) ∨
    (f = .unknownShape ∧ resFail (.decode f) = 0x05#8) := by cases f <;> decide

theorem resOk_eq : resOk = 0x80#8 := rfl

/-- `setCsrIf` writes CSR or nothing. -/
theorem State.setCsrIf_eq (s : State) (o : Option Byte) : s.setCsrIf o = s.setCsr (o.getD s.csr) := by
  cases o <;> rfl

/-- The registers DEC and the rows of the shape map leave as they were, whatever they answer (R92). -/
theorem State.decodeBy_next {s t : State} {path : DecodePath} (h : s.decodeBy path = .next t) :
    ∃ b, s.input = .ok b ∧ s.deliver (gate s.config s.ce b (afterFloor path b)) = .next t := State.withInput_next h

/-- A path that passes the length floor is delivered behind the gate. -/
theorem State.decodeBy_of_seven {s : State} {b : List Byte} (hb : s.input = .ok b) (h7 : 7 ≤ b.length)
    (path : DecodePath) : s.decodeBy path = s.deliver (gate s.config s.ce b (path b h7)) := by
  rw [State.decodeBy, State.withInput_of_input hb, afterFloor_of_seven h7]

/-! ## The invariant -/

theorem resLegal_resOk : ResLegal resOk := by decide

theorem resLegal_resFail (f : Failure) : ResLegal (resFail f) := by
  cases f with
  | decode f => cases f <;> decide
  | operandRange => decide

theorem resLegal_resEvent (e : DecodedEvent) : ResLegal (resEvent e) := by
  cases e <;> simp only [resEvent_tagDetected, resEvent_errorReported, resEvent_unrecognized] <;> decide

theorem State.Inv.setRes {s : State} (h : s.Inv) {r : BitVec 8} (hr : ResLegal r) : (s.setRes r).Inv := by
  obtain ⟨h1, h2, h3, h4, h5, h6, h7, -, h9⟩ := h
  exact ⟨h1, h2, h3, h4, h5, h6, h7, hr, h9⟩

theorem State.Inv.setCsr {s : State} (h : s.Inv) (k : Byte) : (s.setCsr k).Inv := h

theorem State.Inv.setTag {s : State} (h : s.Inv) (x : Byte) (p : BitVec 16) : (s.setTag x p).Inv := h

theorem State.Inv.setErrcode {s : State} (h : s.Inv) (x : Byte) : (s.setErrcode x).Inv := h

theorem State.Inv.setScript {s : State} (h : s.Inv) (es : List HostEvent) : (s.setScript es).Inv := h

theorem State.Inv.setWf {s : State} (h : s.Inv) {w : BitVec 8} (hw : w.extractLsb' 5 3 = 0#3) : (s.setWf w).Inv := by
  obtain ⟨h1, h2, h3, h4, h5, h6, h7, h8, -, h10⟩ := h
  exact ⟨h1, h2, h3, h4, h5, h6, h7, h8, hw, h10⟩

theorem State.Inv.setFlg {s : State} (h : s.Inv) {f : BitVec 8} (hf : f.extractLsb' 1 7 = 0#7) : (s.setFlg f).Inv := by
  obtain ⟨h1, h2, h3, h4, h5, h6, h7, h8, h9, -, h11⟩ := h
  exact ⟨h1, h2, h3, h4, h5, h6, h7, h8, h9, hf, h11⟩

theorem State.Inv.setCfg {s : State} (h : s.Inv) {c : BitVec 8} (hc : c.extractLsb' 1 7 = 0#7) : (s.setCfg c).Inv := by
  obtain ⟨h1, h2, h3, h4, h5, h6, h7, h8, h9, h10, -⟩ := h
  exact ⟨h1, h2, h3, h4, h5, h6, h7, h8, h9, h10, hc⟩

theorem State.Inv.setIlen_zero {s : State} (h : s.Inv) : (s.setIlen 0).Inv := by
  obtain ⟨h1, h2, h3, h4, h5, h6, h7, h8⟩ := h
  exact ⟨h1, Nat.zero_le _, h3, h4, h5, ⟨fun i hi => absurd hi (Nat.not_lt_zero i), h6.2⟩, h7, h8⟩

theorem State.Inv.pushInput {s : State} (h : s.Inv) (x : Byte) (hc : s.ilen < s.config.bufCap) :
    (s.pushInput x).Inv := by
  obtain ⟨h1, h2, h3, h4, h5, h6, h7, h8⟩ := h
  refine ⟨h1, hc, h3, Memory.wf_write _ _ _ h4, h5, ⟨fun i hi => ?_, fun e he => ?_⟩, h7, h8⟩
  · simp only [State.pushInput_ibuf, State.pushInput_ilen, Memory.read_write] at hi ⊢
    split
    · rfl
    · exact h6.1 i (by omega)
  · rcases Memory.mem_write _ _ _ _ he with he | he
    · subst he; exact hc
    · exact h6.2 e he

theorem State.Inv.setOutput {s : State} (h : s.Inv) {bs : List Byte} (hl : bs.length ≤ s.config.bufCap) :
    (s.setOutput bs).Inv := by
  obtain ⟨h1, h2, h3, h4, h5, h6, h7, h8⟩ := h
  refine ⟨h1, h2, hl, h4, Memory.wf_writeSeq _ _ _ h5, h6, ⟨fun i hi => ?_, fun e he => ?_⟩, h8⟩
  · simp only [State.setOutput_obuf, State.setOutput_olen, Memory.read_writeSeq] at hi ⊢
    rw [dif_pos (by omega)]
    rfl
  · rcases Memory.mem_writeSeq _ _ _ _ he with he | he
    · simp only [State.setOutput_config]; omega
    · exact h7.2 e he

end Sys2Proof.Machine
end

