-- ==== Sys2Proof/Laws/Exec.lean ====
section
/-! SUPPORT. What each instruction can answer, once: if it answers next u, then u is one of these. -/

namespace Sys2Proof.Machine

theorem State.deliverFrame_next {s u : State} {t c : Byte} {p : List Byte} (h : s.deliverFrame t c p = .next u) :
    (enc s.config t c p).length ≤ s.config.bufCap ∧
      u = ((s.setOutput (enc s.config t c p)).setCsr (encChecksum s.config t c p)).setRes 0x80#8 := by
  unfold State.deliverFrame at h
  obtain ⟨hl, h⟩ := State.withOutput_next h
  cases h
  exact ⟨hl, rfl⟩

theorem execPush_next {s u : State} {x : Byte} (h : execPush x s = .next u) :
    (s.ilen < s.config.bufCap ∧ u = s.pushInput x) ∨
    (s.config.bufCap ≤ s.ilen ∧ u = s.setFlg (flgSetOvf s.flg)) := by
  unfold execPush at h
  split at h
  · cases h; exact .inl ⟨‹_›, rfl⟩
  · cases h; exact .inr ⟨by omega, rfl⟩

theorem execEnc_next {s u : State} {t c : Byte} (h : execEnc t c s = .next u) :
    u = s.setRes 0x07#8 ∨
    ∃ p, s.input = .ok p ∧ (enc s.config t c p).length ≤ s.config.bufCap ∧
      u = ((s.setOutput (enc s.config t c p)).setCsr (encChecksum s.config t c p)).setRes 0x80#8 := by
  unfold execEnc at h
  split at h
  · cases h; exact .inl rfl
  · obtain ⟨p, hp, h⟩ := State.withInput_next h
    exact .inr ⟨p, hp, State.deliverFrame_next h⟩

theorem execCsum_next {s u : State} (h : execCsum s = .next u) :
    ∃ b, s.input = .ok b ∧ u = (s.setCsr (csum s.config b)).setRes 0x80#8 := by
  obtain ⟨b, hb, h⟩ := State.withInput_next h
  cases h
  exact ⟨b, hb, rfl⟩

/-- VERIFY writes CSR where the span exists, on `BadChecksum` too, and only RES where it does not (R77). -/
theorem execVerify_next {s u : State} (h : execVerify s = .next u) :
    (∃ k, u = (s.setCsr k).setRes 0x80#8) ∨ (∃ k, u = (s.setCsr k).setRes 0x04#8) ∨ u = s.setRes 0x01#8 ∨
      u = s.setRes 0x03#8 := by
  obtain ⟨b, -, h⟩ := State.withInput_next h
  simp only [State.setCsrIf_eq] at h
  unfold verify at h
  split at h
  · cases h; exact .inl ⟨_, rfl⟩
  · rename_i f hf
    split at hf
    · rename_i h7
      cases hf; cases h
      rw [rxCsum_of_not_complete fun hc => by have := hc.1; omega]
      exact .inr (.inr (.inl rfl))
    · split at hf
      · rename_i hn
        cases hf; cases h
        rw [rxCsum, hn]
        exact .inr (.inr (.inr rfl))
      · split at hf
        · cases hf; cases h; exact .inr (.inl ⟨_, rfl⟩)
        · cases hf

theorem WfClauses.word_bits (w : WfClauses) :
    w.word.getLsbD 0 = w.h ∧ w.word.getLsbD 1 = w.l ∧ w.word.getLsbD 2 = w.c ∧ w.word.getLsbD 3 = w.t ∧
    w.word.getLsbD 4 = w.all ∧ w.word.extractLsb' 5 3 = 0#3 := by
  obtain ⟨h, l, c, t⟩ := w
  cases h <;> cases l <;> cases c <;> cases t <;> decide

/-- WFCHK writes CSR exactly where the length clause holds (R81). -/
theorem execWfchk_next {s u : State} (h : execWfchk s = .next u) :
    ∃ (w : WfClauses) (k : Byte), u = ((s.setWf w.word).setCsr k).setRes 0x80#8 ∧ (w.l = false → k = s.csr) := by
  obtain ⟨b, -, h⟩ := State.withInput_next h
  simp only [State.setCsrIf_eq] at h
  cases h
  refine ⟨_, _, rfl, fun hl => ?_⟩
  have hn : frameAt b = none := by simpa [wfClauses] using hl
  simp [rxCsum, hn]

theorem execPext_next {s u : State} (h : execPext s = .next u) :
    (∃ p, p.length ≤ s.config.bufCap ∧ u = (s.setOutput p).setRes 0x80#8) ∨
    ∃ f, u = s.setRes (resFail (.decode f)) := by
  obtain ⟨b, -, h⟩ := State.withInput_next h
  split at h
  · obtain ⟨hl, h⟩ := State.withOutput_next h
    cases h
    exact .inl ⟨_, hl, rfl⟩
  · cases h; exact .inr ⟨_, rfl⟩

/-- An event that passes the gate is the path's own. -/
theorem gate_eq_ok {cfg : Config} {ce : Bool} {b : List Byte} {r : Except DecodeFailure DecodedEvent} {e : DecodedEvent}
    (h : gate cfg ce b r = .ok e) : r = .ok e := by
  unfold gate at h
  split at h
  · cases h
  · split at h
    · split at h
      · cases h
      · cases h; rfl
    · cases h; rfl

theorem afterFloor_eq_ok {path : DecodePath} {b : List Byte} {e : DecodedEvent} (h : afterFloor path b = .ok e) :
    ∃ h7, path b h7 = .ok e := by
  unfold afterFloor at h
  split at h
  · cases h
  · exact ⟨_, h⟩

/-- DEC and a frame row: an event its path gives is delivered, or RES gets a failure. -/
theorem State.decodeBy_delivers {s u : State} {path : DecodePath} (h : s.decodeBy path = .next u) :
    ∃ b, s.input = .ok b ∧
      ((∃ (h7 : 7 ≤ b.length) (x : Byte) (pc : BitVec 16) (epc : List Byte),
          path b h7 = .ok (.tagDetected x pc epc) ∧ epc.length ≤ s.config.bufCap ∧
          u = ((s.setOutput epc).setTag x pc).setRes 0xA0#8) ∨
        (∃ (h7 : 7 ≤ b.length) (code : Byte),
          path b h7 = .ok (.errorReported code) ∧ u = (s.setErrcode code).setRes 0xC0#8) ∨
        (∃ h7 : 7 ≤ b.length, path b h7 = .ok .unrecognized ∧ u = s.setRes 0xE0#8) ∨
        ∃ f, u = s.setRes (resFail (.decode f))) := by
  obtain ⟨b, hb, hd⟩ := State.decodeBy_next h
  refine ⟨b, hb, ?_⟩
  rcases State.deliver_next hd with ⟨x, pc, epc, hr, hl, rfl⟩ | ⟨code, hr, rfl⟩ | ⟨hr, rfl⟩ | ⟨f, hr, rfl⟩
  · obtain ⟨h7, hp⟩ := afterFloor_eq_ok (gate_eq_ok hr)
    exact .inl ⟨h7, x, pc, epc, hp, hl, rfl⟩
  · obtain ⟨h7, hp⟩ := afterFloor_eq_ok (gate_eq_ok hr)
    exact .inr (.inl ⟨h7, code, hp, rfl⟩)
  · obtain ⟨h7, hp⟩ := afterFloor_eq_ok (gate_eq_ok hr)
    exact .inr (.inr (.inl ⟨h7, hp, rfl⟩))
  · exact .inr (.inr (.inr ⟨f, rfl⟩))

/-- The tag path gives a tag or a failure, and the tag's EPC is no longer than the sequence (R89). -/
theorem tagPath_ok {cfg : Config} {b : List Byte} {h7 : 7 ≤ b.length} {e : DecodedEvent}
    (h : tagPath cfg b h7 = .ok e) : ∃ x pc epc, e = .tagDetected x pc epc ∧ epc.length ≤ b.length := by
  unfold tagPath at h
  split at h
  · cases h
  · split at h
    · cases h
    · split at h
      · cases h
      · cases h
        exact ⟨_, _, _, rfl, by rw [length_slice]; omega⟩

/-- The path the shape map selects gives an event only by the tag path, the error report or the other response (R52). -/
theorem shapePath_ok {cfg : Config} {b : List Byte} {h7 : 7 ≤ b.length} {e : DecodedEvent}
    (h : shapePath cfg b h7 = .ok e) :
    tagPath cfg b h7 = .ok e ∨ errorReportPath b h7 = .ok e ∨ otherResponsePath b h7 = .ok e := by
  unfold shapePath at h
  split at h
  · cases h
  · split at h
    · split at h
      · exact .inr (.inl h)
      · exact .inr (.inr h)
    · split at h
      · exact .inl h
      · cases h

end Sys2Proof.Machine
end

