-- ==== Sys2Proof/Laws/PerInstr.lean ====
section
/-! SUPPORT. Facts made per instruction: the family RoundTrip, decoding what `encode` gives. -/

namespace Sys2Proof

/-! ## Fields of a command word (30_encoding.md rule R57) -/

@[simp] theorem opField_commandWord (op : BitVec 4) (a b : Byte) : opField (commandWord op a b) = op := by
  apply BitVec.eq_of_getLsbD_eq
  intro i hi
  simp only [opField, commandWord, BitVec.getLsbD_extractLsb', BitVec.getLsbD_append, hi]
  simp [show ¬ 16 + i < 8 by omega, show ¬ 16 + i - 8 < 8 by omega, show 16 + i - 8 - 8 = i by omega]

@[simp] theorem aField_commandWord (op : BitVec 4) (a b : Byte) : aField (commandWord op a b) = a := by
  apply BitVec.eq_of_getLsbD_eq
  intro i hi
  simp only [aField, commandWord, BitVec.getLsbD_extractLsb', BitVec.getLsbD_append, hi]
  simp [show 8 + i - 8 = i by omega, hi]

@[simp] theorem bField_commandWord (op : BitVec 4) (a b : Byte) : bField (commandWord op a b) = b := by
  apply BitVec.eq_of_getLsbD_eq
  intro i hi
  simp only [bField, commandWord, BitVec.getLsbD_extractLsb', BitVec.getLsbD_append, hi]
  simp [hi]

/-- The three fields are all of the word. -/
theorem commandWord_fields (w : CommandWord) : commandWord (opField w) (aField w) (bField w) = w := by
  apply BitVec.eq_of_getLsbD_eq
  intro i hi
  simp only [opField, aField, bField, commandWord, BitVec.getLsbD_append, BitVec.getLsbD_extractLsb']
  by_cases h1 : i < 8
  · simp [h1]
  · by_cases h2 : i - 8 < 8
    · simp [h1, h2, show 8 + (i - 8) = i by omega]
    · have h3 : i - 8 - 8 < 4 := by omega
      simp [h1, h2, h3, show 16 + (i - 8 - 8) = i by omega]

end Sys2Proof

namespace Sys2Proof.Laws.RoundTrip

/-- A well-formed instruction is what its encoding decodes to. -/
def Statement (i : Instr) : Prop := i.wellFormed = true → decode (encode i) = i

theorem clr : Statement .clr := fun _ => by simp [encode, decode, decodeCommand]

theorem push (x : Byte) : Statement (.push x) := fun _ => by simp [encode, decode, decodeCommand]

theorem enc (t c : Byte) : Statement (.enc t c) := fun _ => by simp [encode, decode, decodeCommand]

theorem encInv : Statement .encInv := fun _ => by simp [encode, decode, decodeCommand]

theorem csum : Statement .csum := fun _ => by simp [encode, decode, decodeCommand]

theorem verify : Statement .verify := fun _ => by simp [encode, decode, decodeCommand]

theorem wfchk : Statement .wfchk := fun _ => by simp [encode, decode, decodeCommand]

theorem pext : Statement .pext := fun _ => by simp [encode, decode, decodeCommand]

theorem dec : Statement .dec := fun _ => by simp [encode, decode, decodeCommand]

theorem setcfg (v : Byte) : Statement (.setcfg v) := fun _ => by simp [encode, decode, decodeCommand]

theorem reserved0 : Statement .reserved0 := fun _ => by simp [encode, decode, decodeCommand]

theorem reservedB : Statement .reservedB := fun _ => by simp [encode, decode, decodeCommand]

theorem reservedC : Statement .reservedC := fun _ => by simp [encode, decode, decodeCommand]

theorem reservedD : Statement .reservedD := fun _ => by simp [encode, decode, decodeCommand]

theorem reservedE : Statement .reservedE := fun _ => by simp [encode, decode, decodeCommand]

theorem reservedF : Statement .reservedF := fun _ => by simp [encode, decode, decodeCommand]

theorem frameRspErr : Statement .frameRspErr := fun _ => by decide

theorem frameRspOther (c : Byte) : Statement (.frameRspOther c) := fun h => by
  have hc : c ≠ 0xFF#8 := by simpa [Instr.wellFormed] using h
  simp [encode, decode, frameRow, hc]

theorem frameNtfTag : Statement .frameNtfTag := fun _ => by decide

theorem frameCmdInv : Statement .frameCmdInv := fun _ => by decide

theorem frameOther (t c : Byte) : Statement (.frameOther t c) := fun h => by
  simp only [Instr.wellFormed, Bool.and_eq_true, Bool.not_eq_true', Bool.and_eq_false_iff, bne_iff_ne, ne_eq,
    beq_eq_false_iff_ne] at h
  obtain ⟨⟨h1, h2⟩, h3⟩ := h
  have e2 : ¬ (t = typeNotification ∧ c = cmdInventory) := by tauto
  have e3 : ¬ (t = typeCommand ∧ c = cmdInventory) := by tauto
  have eh : ¬ ((0xBB : Byte) ≠ header) := by decide
  simp only [encode, decode, frameRow, h1, e2, e3, eh, false_and, if_false]

theorem frameNoHeader (h t c : Byte) : Statement (.frameNoHeader h t c) := fun hw => by
  have hh : h ≠ 0xBB#8 := by simpa [Instr.wellFormed] using hw
  simp [encode, decode, frameRow, hh]

end Sys2Proof.Laws.RoundTrip
end

