-- ==== Sys2Proof/Laws/Run.lean ====
section
/-! SUPPORT. Runs of several steps, and the step that takes one command word. -/

namespace Sys2Proof.Machine

@[simp] theorem core_run_zero (s : State) : Host.Core.run core 0 s = .next s := rfl

theorem core_run_of_next {s t : State} (h : step s = .next t) (n : Nat) :
    Host.Core.run core (n + 1) s = Host.Core.run core n t := by
  have h : core.step s = .next t := h
  simp only [Host.Core.run]
  rw [h]

theorem core_run_one (s : State) : Host.Core.run core 1 s = step s := by
  have h : core.step s = step s := rfl
  simp only [Host.Core.run]
  rw [h]
  cases step s <;> rfl

/-- The last step of a run is one step of the state the run before it ends in. -/
theorem core_run_last {n : Nat} : ∀ {s t : State}, Host.Core.run core n s = .next t →
    Host.Core.run core (n + 1) s = step t := by
  induction n with
  | zero =>
    intro s t h
    have h : s = t := by injection h
    subst h
    exact core_run_one s
  | succ n ih =>
    intro s t h
    match hs : step s with
    | .next u =>
      rw [core_run_of_next hs] at h ⊢
      exact ih h
    | .fault r =>
      have hs : core.step s = .fault r := hs
      simp only [Host.Core.run] at h
      rw [hs] at h
      cases h
    | .refused r =>
      have hs : core.step s = .refused r := hs
      simp only [Host.Core.run] at h
      rw [hs] at h
      cases h

/-- A command word at the head of the script is decoded and performed, and taken off the script. -/
theorem step_command {s : State} {w : CommandWord} {es : List HostEvent} (h : s.script = .command w :: es) :
    step s = exec (decodeCommand w) (s.setScript es) := by
  simp only [step, State.nextEvent, h]

theorem step_reset {s : State} {es : List HostEvent} (h : s.script = .reset :: es) :
    step s = .next (s.setScript es).resetEvent := by
  simp only [step, State.nextEvent, h]

theorem step_idle {s : State} (h : s.script = []) : step s = .next s := by
  simp only [step, State.nextEvent, h]

/-- PUSHS appends its bytes in order (30_encoding.md rule R61). -/
theorem core_run_pushs (bs : List Byte) : ∀ (s : State) (b : List Byte) (es : List HostEvent),
    s.script = pushsOps bs ++ es → s.input = .ok b → b.length + bs.length ≤ s.config.bufCap →
    ∃ t : State, Host.Core.run core bs.length s = .next t ∧ t.input = .ok (b ++ bs) ∧
      t = { s with ibuf := t.ibuf, ilen := b.length + bs.length, script := es } := by
  induction bs with
  | nil =>
    intro s b es hs hb _
    refine ⟨s, rfl, by simpa using hb, ?_⟩
    simp only [pushsOps, List.map_nil, List.nil_append] at hs
    have := State.input_length hb
    subst hs
    rw [show b.length + ([] : List Byte).length = s.ilen by simp [this]]
  | cons x bs ih =>
    intro s b es hs hb hc
    simp only [List.length_cons] at hc
    have hlen := State.input_length hb
    have hlt : s.ilen < s.config.bufCap := by omega
    obtain ⟨t, h1, h2, h3⟩ := ih ((s.setScript (pushsOps bs ++ es)).pushInput x) (b ++ [x]) es rfl
      (State.pushInput_input x hb hlt) (by simp; omega)
    have hstep : step s = .next ((s.setScript (pushsOps bs ++ es)).pushInput x) := by
      rw [step_command (show s.script = .command (commandWord 0x2 x 0) :: (pushsOps bs ++ es) from hs)]
      simp only [decodeCommand, opField_commandWord, aField_commandWord]
      exact if_pos hlt
    refine ⟨t, by rw [List.length_cons, core_run_of_next hstep]; exact h1, by simpa using h2, ?_⟩
    rw [h3]
    simp only [State.pushInput, State.setScript, List.length_append, List.length_cons, List.length_nil, State.mk.injEq,
      true_and, and_true]
    omega

end Sys2Proof.Machine
end

