-- ==== Sys2Proof/Tests/Slice0.lean ====
section
/-! SUPPORT. Tests. Expected values are those of 95_test_vectors.md (the vector is named) or of the rule named, never
the model's own answer; then one witness for every statement that has hypotheses. -/

namespace Sys2Proof.Tests

open Sys2Proof.Machine

/-! ## Helpers -/

/-- The answer is a next state with this property. -/
def gives (o : Answer) (p : State → Bool) : Bool :=
  match o with
  | .next t => p t
  | .fault _ => false
  | .refused _ => false

/-- A witness from an answer that gives one. -/
theorem exists_of_gives {o : Answer} {P : State → Prop} [DecidablePred P] (h : gives o (fun t => decide (P t)) = true) :
    ∃ t, o = .next t ∧ P t := by
  match o with
  | .next t => exact ⟨t, rfl, of_decide_eq_true h⟩
  | .fault _ => cases h
  | .refused _ => cases h

/-- The machine after reset with this input. -/
def loaded (b : List Byte) : State := State.reset.placeInput b

/-- The same with CFG.CE = 1. -/
def loadedCe (b : List Byte) : State := (loaded b).setCfg 0x01

/-- A machine with a small BUF_CAP and this input. -/
def small (cap : Nat) (b : List Byte) : State :=
  State.placeInput { State.reset with config := ⟨cap, 11, 4, false⟩ } b

/-- The same state with other values in the registers 10_state.md rule R26 leaves unspecified, other free values, and a
byte of IBUF after the input sequence. -/
def otherUnspecified (s : State) : State :=
  { s with rssi := 0xC4, pcw := 0x3000, errcode := 0x15, csr := 0xFF, wf := 0x1F, freeCount := s.freeCount + 6,
           ibuf := Memory.write s.ibuf s.ilen 0x5A }

/-- The output byte sequence of a state. -/
def outputIs (s : State) (b : List Byte) : Bool := s.output.toOption == some b

/-- V-DEC-09: the completed scenario 1, an error report. -/
def errFrame : List Byte := [0xBB, 0x01, 0xFF, 0x00, 0x01, 0x15, 0x16, 0x7E]

/-- V-DEC-16: the corrected scenario 2, a tag notification. -/
def tagFrame : List Byte := [0xBB, 0x02, 0x22, 0x00, 0x05, 0xC4, 0x30, 0x00, 0xE2, 0x00, 0xFF, 0x7E]

/-- V-DEC-26: the same with checksum byte 00. -/
def badTagFrame : List Byte := [0xBB, 0x02, 0x22, 0x00, 0x05, 0xC4, 0x30, 0x00, 0xE2, 0x00, 0x00, 0x7E]

/-- V-SRC-04: the inventory command. -/
def invFrame : List Byte := [0xBB, 0x00, 0x22, 0x00, 0x00, 0x22, 0x7E]

/-- V-DEC-13: a response with command 22. -/
def rspFrame : List Byte := [0xBB, 0x01, 0x22, 0x00, 0x02, 0x00, 0x01, 0x26, 0x7E]

/-- V-DEC-14: a response with length field FFFF and a garbage tail. -/
def longRsp : List Byte := [0xBB, 0x01, 0x03, 0xFF, 0xFF, 0x12, 0x34]

/-- V-DEC-30: a notification with command 27. -/
def otherFrame : List Byte := [0xBB, 0x02, 0x27, 0x00, 0x04, 0x01, 0x02, 0x03, 0x04, 0x37, 0x7E]

/-- V-DEC-06: header AA. -/
def noHeader : List Byte := [0xAA, 0x01, 0xFF, 0x00, 0x01, 0x15, 0x16, 0x7E]

/-! ## Well-formedness: an ill-formed term for each check -/

/-- Row 3 leaves command FF to row 2 (30_encoding.md rule R52). -/
theorem test_wellFormed_rspOther : (Instr.frameRspOther 0xFF).wellFormed = false ∧
    (Instr.frameRspOther 0xFE).wellFormed = true := by decide

theorem test_wellFormed_other_response : (Instr.frameOther 0x01 0x05).wellFormed = false := by decide

theorem test_wellFormed_other_tag : (Instr.frameOther 0x02 0x22).wellFormed = false ∧
    (Instr.frameOther 0x02 0x23).wellFormed = true := by decide

theorem test_wellFormed_other_inventory : (Instr.frameOther 0x00 0x22).wellFormed = false ∧
    (Instr.frameOther 0x00 0x23).wellFormed = true := by decide

theorem test_wellFormed_noHeader : (Instr.frameNoHeader 0xBB 0x00 0x00).wellFormed = false ∧
    (Instr.frameNoHeader 0xBA 0x00 0x00).wellFormed = true := by decide

/-! ## Decoding: words written out from 30_encoding.md rules R57, R58, R52 -/

theorem test_decode_clr : decodeCommand 0b00010000000000000000#20 = .clr := by decide
theorem test_decode_push : decodeCommand 0b00101011101100000000#20 = .push 0xBB := by decide
theorem test_decode_enc : decodeCommand 0b00110000001000100010#20 = .enc 0x02 0x22 := by decide
theorem test_decode_encInv : decodeCommand 0b01000000000000000000#20 = .encInv := by decide
theorem test_decode_csum : decodeCommand 0b01010000000000000000#20 = .csum := by decide
theorem test_decode_verify : decodeCommand 0b01100000000000000000#20 = .verify := by decide
theorem test_decode_wfchk : decodeCommand 0b01110000000000000000#20 = .wfchk := by decide
theorem test_decode_pext : decodeCommand 0b10000000000000000000#20 = .pext := by decide
/-- V-CTL-12: unused operand fields are ignored. -/
theorem test_decode_dec : decodeCommand 0b10011010101111001101#20 = .dec := by decide
theorem test_decode_setcfg : decodeCommand 0b10101111111000000000#20 = .setcfg 0xFE := by decide
theorem test_decode_reserved0 : decodeCommand 0b00000000000000000000#20 = .reserved0 := by decide
theorem test_decode_reservedB : decodeCommand 0b10110000000000000000#20 = .reservedB := by decide
theorem test_decode_reservedC : decodeCommand 0b11000000000000000000#20 = .reservedC := by decide
theorem test_decode_reservedD : decodeCommand 0b11010000000000000000#20 = .reservedD := by decide
theorem test_decode_reservedE : decodeCommand 0b11100000000000000000#20 = .reservedE := by decide
/-- V-CTL-10. -/
theorem test_decode_reservedF : decodeCommand 0xF1234#20 = .reservedF := by decide
theorem test_decode_frameRspErr : frameRow 0b10111011 0b00000001 0b11111111 = .frameRspErr := by decide
theorem test_decode_frameRspOther : frameRow 0b10111011 0b00000001 0b00100010 = .frameRspOther 0x22 := by decide
theorem test_decode_frameNtfTag : frameRow 0b10111011 0b00000010 0b00100010 = .frameNtfTag := by decide
theorem test_decode_frameCmdInv : frameRow 0b10111011 0b00000000 0b00100010 = .frameCmdInv := by decide
theorem test_decode_frameOther : frameRow 0b10111011 0b00000010 0b00100111 = .frameOther 0x02 0x27 := by decide
theorem test_decode_frameNoHeader : frameRow 0b10101010 0b00000001 0b11111111 = .frameNoHeader 0xAA 0x01 0xFF := by
  decide

/-- 42_decoder.md rule R86 comes before the shape map; 30_encoding.md rule R57 bounds the word. -/
theorem test_decode_rejects : decodeFrameBytes (errFrame.take 6) = .error .frameTooShort ∧
    decodeFrameBytes errFrame = .ok .frameRspErr ∧ decodeWord 0x100000 = .error .wordTooWide ∧
    decodeWord 0xFFFFF = .ok .reservedF := by decide

/-- The opcode table's own words. -/
theorem test_decodeTableWord : decodeTableWord 24 0x10000 = some .clr ∧ decodeTableWord 24 0xF0000 = some .reservedF ∧
    decodeTableWord 24 0xBB01FF = some .frameRspErr ∧ decodeTableWord 24 0xBB0022 = some .frameCmdInv ∧
    decodeTableWord 24 0xBB0000 = some (.frameOther 0 0) ∧ decodeTableWord 24 0x1000000 = none := by decide

/-! ## One step of each operation -/

/-- V-CTL-06. -/
theorem test_clr : gives (exec .clr ((small 16 errFrame).setFlg 0x01)) (fun t => t.ilen == 0 && t.flg == 0x00) := by
  decide

/-- V-CTL-03: the results stay readable. -/
theorem test_clr_keeps_results : gives (exec .clr (((loaded errFrame).setErrcode 0x15).setRes 0xC0))
    (fun t => t.ilen == 0 && t.res == 0xC0 && t.errcode == 0x15) := by decide

/-- V-CTL-01. -/
theorem test_push : gives (exec (.push 0xBB) State.reset)
    (fun t => t.ilen == 1 && Memory.read t.ibuf 0 == some 0xBB) := by decide

/-- V-CTL-04, with BUF_CAP = 8. -/
theorem test_push_full : gives (exec (.push 0x44) (small 8 errFrame))
    (fun t => t.ilen == 8 && t.ibuf == (small 8 errFrame).ibuf && t.flg == 0x01) := by decide

/-- V-CTL-07, V-CTL-08, V-CTL-09. -/
theorem test_setcfg : gives (exec (.setcfg 0xFF) State.reset) (fun t => t.cfg == 0x01) ∧
    gives (exec (.setcfg 0xFE) (loadedCe [])) (fun t => t.cfg == 0x00) := by decide

/-- V-ENC-04. -/
theorem test_enc : gives (exec (.enc 0x02 0x22) (loaded [0xC4, 0x30, 0x00, 0xE2, 0x00]))
    (fun t => outputIs t tagFrame && t.olen == 12 && t.csr == 0xFF && t.res == 0x80) := by decide

/-- Program P6: 9 payload bytes fit BUF_CAP = 16, 10 do not. -/
theorem test_enc_range :
    gives (exec (.enc 0x00 0x27) (small 16 [1, 2, 3, 4, 5, 6, 7, 8, 9])) (fun t => t.olen == 16 && t.csr == 0x5D) ∧
    gives (exec (.enc 0x00 0x27) (small 16 [1, 2, 3, 4, 5, 6, 7, 8, 9, 10])) (fun t => t.olen == 0 && t.res == 0x07) := by
  decide

/-- V-SRC-04. -/
theorem test_encInv : gives (exec .encInv State.reset)
    (fun t => outputIs t invFrame && t.olen == 7 && t.csr == 0x22 && t.res == 0x80) := by decide

/-- V-CSUM-05, V-CSUM-08. -/
theorem test_csum : gives (exec .csum (loaded [0x00, 0x22, 0x00, 0x00])) (fun t => t.csr == 0x22 && t.res == 0x80) ∧
    gives (exec .csum (loaded [0xFF, 0xFF, 0xFF, 0xFF])) (fun t => t.csr == 0xFC) := by decide

/-- V-CSUM-03: three bytes give the default 0. -/
theorem test_csum_short : gives (exec .csum ((loaded [1, 2, 3]).setCsr 0x55)) (fun t => t.csr == 0x00 && t.res == 0x80) := by
  decide

/-- V-OTH-06, V-OTH-07: the header is not looked at; the length bytes are. -/
theorem test_verify : gives (exec .verify (loaded noHeader)) (fun t => t.res == 0x80 && t.csr == 0x16) ∧
    gives (exec .verify ((loaded (0x00 :: errFrame)).setCsr 0x55)) (fun t => t.res == 0x03 && t.csr == 0x55) := by decide

/-- V-OTH-26. -/
theorem test_verify_bad : gives (exec .verify (loaded badTagFrame)) (fun t => t.res == 0x04 && t.csr == 0xFF) := by decide

/-- V-OTH-16, V-OTH-26. -/
theorem test_wfchk : gives (exec .wfchk (loaded tagFrame)) (fun t => t.wf == 0x1F && t.csr == 0xFF && t.res == 0x80) ∧
    gives (exec .wfchk (loaded badTagFrame)) (fun t => t.wf == 0x0B && t.csr == 0xFF) := by decide

/-- V-OTH-27, V-OTH-08. -/
theorem test_wfchk_clauses : gives (exec .wfchk (loaded (tagFrame.set 11 0x00))) (fun t => t.wf == 0x07) ∧
    gives (exec .wfchk ((loaded (errFrame.take 7)).setCsr 0x55)) (fun t => t.wf == 0x01 && t.csr == 0x55) := by decide

/-- V-OTH-16. -/
theorem test_pext : gives (exec .pext (loaded tagFrame))
    (fun t => outputIs t [0xC4, 0x30, 0x00, 0xE2, 0x00] && t.olen == 5 && t.res == 0x80) := by decide

/-- V-OTH-06, V-OTH-15. -/
theorem test_pext_fails : gives (exec .pext (loaded noHeader)) (fun t => t.res == 0x02) ∧
    gives (exec .pext (loaded [0xBB, 0x02, 0x22, 0x00, 0x06, 0xC4, 0x30, 0x00, 0xE2, 0x00, 0x7E]))
      (fun t => t.res == 0x03 && t.olen == 0) := by decide

/-- V-DEC-16. -/
theorem test_dec_tag : gives (exec .dec (loaded tagFrame))
    (fun t => t.res == 0xA0 && t.rssi == 0xC4 && t.pcw == 0x3000 && t.olen == 2 && outputIs t [0xE2, 0x00]) := by decide

/-- V-DEC-26 at both values of CE, V-DEC-08 with CE = 1. -/
theorem test_dec_gate : gives (exec .dec (loaded badTagFrame)) (fun t => t.res == 0xA0) ∧
    gives (exec .dec (loadedCe badTagFrame)) (fun t => t.res == 0x04 && t.olen == 0) ∧
    gives (exec .dec (loadedCe [0xBB, 0x01, 0xFF, 0x00, 0x01, 0x15, 0x7E])) (fun t => t.res == 0x03) := by decide

/-- V-CTL-10. -/
theorem test_reserved : [Instr.reserved0, .reservedB, .reservedC, .reservedD, .reservedE, .reservedF].all
    (fun i => gives (exec i (loaded errFrame)) (fun t => t == loaded errFrame)) := by decide

/-- V-DEC-08, V-DEC-11: byte 5 whatever the length field says. -/
theorem test_frameRspErr : gives (exec .frameRspErr (loaded [0xBB, 0x01, 0xFF, 0x00, 0x01, 0x15, 0x7E]))
      (fun t => t.res == 0xC0 && t.errcode == 0x15) ∧
    gives (exec .frameRspErr (loaded [0xBB, 0x01, 0xFF, 0x00, 0x00, 0xA5, 0x7E]))
      (fun t => t.res == 0xC0 && t.errcode == 0xA5) := by decide

/-- V-DEC-13, V-DEC-14. -/
theorem test_frameRspOther : gives (exec (.frameRspOther 0x22) (loaded rspFrame)) (fun t => t.res == 0xE0) ∧
    gives (exec (.frameRspOther 0x03) (loadedCe longRsp)) (fun t => t.res == 0x03) := by decide

/-- V-DEC-18, V-DEC-19: the 10-byte frame of an empty EPC, alone and followed by one byte. -/
theorem test_frameNtfTag :
    gives (exec .frameNtfTag (loaded [0xBB, 0x02, 0x22, 0x00, 0x03, 0xC4, 0x30, 0x00, 0x1B, 0x7E])) (fun t => t.res == 0x03) ∧
    gives (exec .frameNtfTag (loaded [0xBB, 0x02, 0x22, 0x00, 0x03, 0xC4, 0x30, 0x00, 0x1B, 0x7E, 0x00]))
      (fun t => t.res == 0xA0 && t.pcw == 0x3000 && t.olen == 0) := by decide

/-- V-DEC-22: PL = 2. -/
theorem test_frameNtfTag_underflow :
    gives (exec .frameNtfTag (loaded [0xBB, 0x02, 0x22, 0x00, 0x02, 0xC4, 0x30, 0x1A, 0x7E, 0x00, 0x00]))
      (fun t => t.res == 0x03) := by decide

/-- V-DEC-29, V-DEC-32 with CE = 1. -/
theorem test_frameCmdInv : gives (exec .frameCmdInv (loaded invFrame)) (fun t => t.res == 0x05) ∧
    gives (exec .frameCmdInv (loadedCe (invFrame.set 5 0x99))) (fun t => t.res == 0x05) := by decide

/-- V-DEC-30. -/
theorem test_frameOther : gives (exec (.frameOther 0x02 0x27) (loaded otherFrame)) (fun t => t.res == 0x05) := by decide

/-- V-DEC-06; V-DEC-04 is too short before it has a wrong header. -/
theorem test_frameNoHeader : gives (exec (.frameNoHeader 0xAA 0x01 0xFF) (loadedCe noHeader)) (fun t => t.res == 0x02) ∧
    gives (exec (.frameNoHeader 0x00 0x01 0xFF) (loaded [0x00, 0x01, 0xFF, 0x00, 0x01, 0x15])) (fun t => t.res == 0x01) := by
  decide

/-! ## Steps, resets and the host's reads -/

/-- V-CTL-11: DEC right after reset. -/
theorem test_step_dec : gives (step (State.reset.withFetchWord 24 0x90000)) (fun t => t.res == 0x01 && t.script == []) := by
  decide

/-- A frame row placed by its table word runs as the first instruction after reset (log 11). -/
theorem test_step_frame : gives (step (State.reset.withFetchWord 24 0xBB01FF)) (fun t => t.res == 0xC0) := by decide

/-- Reset clears the lengths, FLG and CFG (10_state.md rule R26). -/
theorem test_step_reset : gives (step (((loadedCe errFrame).setFlg 0x01).setScript [.reset]))
    (fun t => t.ilen == 0 && t.flg == 0x00 && t.cfg == 0x00) := by decide

/-- After reset a byte of either buffer holds its free value (10_state.md rule R26, 93_implementation_defined.md U6). -/
theorem test_unwritten_byte : State.reset.ibufByte 65541 = .ok (Config.freeBufferByte .ibuf 0 65541) ∧
    State.reset.obufByte 65541 = .ok (Config.freeBufferByte .obuf 0 65541) := ⟨rfl, rfl⟩

/-- An index at BUF_CAP is no byte (20_memory.md rule R33). -/
theorem test_index_at_cap : (small 8 errFrame).ibufByte 7 = .ok 0x7E ∧
    (small 8 errFrame).ibufByte 8 = .error .bufferIndexOutOfRange ∧
    ((small 8 errFrame).setIlen 9).input = .error .bufferIndexOutOfRange := by decide

/-- OLEN and the bytes of OBUF are readable, those at OLEN and above too (10_state.md rules R11, R14). -/
theorem test_hostRead : gives (exec .encInv (State.reset.setOutput tagFrame))
    (fun t => t.hostRead (.obuf 6) == some 0x7E && t.hostRead (.obuf 7) == some 0x00 && t.hostRead .olen == some 7 &&
      t.hostRead (.obuf 65542) == none) := by decide

/-- Program P1 step 2: the words of LOOPBACK. -/
theorem test_loopback : gives (exec .encInv State.reset) (fun t => (loopbackOps t).toOption == some
    [.command 0x10000, .command 0x2BB00, .command 0x20000, .command 0x22200, .command 0x20000, .command 0x20000,
      .command 0x22200, .command 0x27E00]) := by decide

theorem test_reset_memory_wf : Memory.wf State.reset.ibuf = true ∧ Memory.wf State.reset.obuf = true := by decide

/-! ## Witnesses: what meets the hypotheses of each statement, a value at the boundary for each clause -/

/-- Seven bytes with header BB that begin like a tag notification, PL = 2. -/
def tag2 : List Byte := [0xBB, 0x02, 0x22, 0x00, 0x02, 0xC4, 0x30, 0x1A, 0x7E, 0x00, 0x00]

/-- The complete 10-byte tag notification with PL = 3, and one byte after it. -/
def tag3 : List Byte := [0xBB, 0x02, 0x22, 0x00, 0x03, 0xC4, 0x30, 0x00, 0x1B, 0x7E, 0x00]

theorem witness_EncodedInstructionsDecodeToThemselves : Instr.wellFormed (.frameRspOther 0xFE) = true ∧
    Instr.wellFormed (.frameOther 0x02 0x23) = true ∧ Instr.wellFormed (.frameOther 0x00 0x21) = true ∧
    Instr.wellFormed (.frameNoHeader 0xBC 0x01 0xFF) = true ∧ Instr.wellFormed (.enc 0xFF 0xFF) = true := by decide

theorem witness_OperationCodesSelectTheOperations :
    (0x1FFFF#20).extractLsb' 16 4 = 0x1#4 ∧ (0x2FFFF#20).extractLsb' 16 4 = 0x2#4 ∧
    (0x3FFFF#20).extractLsb' 16 4 = 0x3#4 ∧ (0x40000#20).extractLsb' 16 4 = 0x4#4 ∧
    (0x5FFFF#20).extractLsb' 16 4 = 0x5#4 ∧ (0x60000#20).extractLsb' 16 4 = 0x6#4 ∧
    (0x7FFFF#20).extractLsb' 16 4 = 0x7#4 ∧ (0x80000#20).extractLsb' 16 4 = 0x8#4 ∧
    (0x9FFFF#20).extractLsb' 16 4 = 0x9#4 ∧ (0xA0000#20).extractLsb' 16 4 = 0xA#4 ∧
    (0x0FFFF#20).extractLsb' 16 4 = 0x0#4 ∧ (0xB0000#20).extractLsb' 16 4 = 0xB#4 ∧
    (0xCFFFF#20).extractLsb' 16 4 = 0xC#4 ∧ (0xD0000#20).extractLsb' 16 4 = 0xD#4 ∧
    (0xEFFFF#20).extractLsb' 16 4 = 0xE#4 ∧ (0xF0000#20).extractLsb' 16 4 = 0xF#4 := by decide

theorem witness_StepRunsThePresentedCommand :
    (State.reset.setScript [.command 0x2BB00]).script = .command 0x2BB00 :: [] ∧ decodeCommand 0x2BB00 = .push 0xBB ∧
    State.reset.script = [] := by decide

theorem witness_DecRunsTheRowOfTheShapeMap : (loaded invFrame).input = .ok invFrame ∧ invFrame.length = 7 := by decide

theorem witness_PlacedFrameRowRunsNext : 7 ≤ (small 7 []).config.bufCap ∧ 16 ≤ (0x10#8).toNat := by decide

theorem witness_ResetEventLeavesTheSpecValues :
    ((loadedCe errFrame).setScript [.reset, .command 0x90000]).script = .reset :: [.command 0x90000] := by decide

theorem witness_PushAppendsOrSetsOverflow :
    ((small 9 errFrame).ilen < (small 9 errFrame).config.bufCap ∧ (small 9 errFrame).input = .ok errFrame) ∧
    (small 8 errFrame).config.bufCap ≤ (small 8 errFrame).ilen := by decide

theorem witness_ReservedCodesChangeNothing : ∃ i : Instr, i = .reserved0 ∨ i = .reservedB ∨ i = .reservedC ∨
    i = .reservedD ∨ i = .reservedE ∨ i = .reservedF := ⟨.reservedF, by decide⟩

theorem witness_LoadedBytesAreTheInput : errFrame.length ≤ (small 8 []).config.bufCap ∧
    ((small 8 []).setScript (loadOps errFrame ++ [.reset])).script = loadOps errFrame ++ [.reset] := by decide

/-- The first clause at a PUSH into a full buffer, the second where OVF was 0. -/
theorem witness_OverflowFlagIsSticky :
    (∃ t, exec (.push 0x18) ((small 8 errFrame).setFlg 0x01) = .next t ∧
      ((small 8 errFrame).setFlg 0x01).flg.getLsbD 0 = true) ∧
    ∃ t, exec (.push 0x44) (small 8 errFrame) = .next t ∧ (small 8 errFrame).flg.getLsbD 0 = false ∧
      t.flg.getLsbD 0 = true := ⟨exists_of_gives (by decide), exists_of_gives (by decide)⟩

/-- The largest payload that fits BUF_CAP = 16, and the least that does not. -/
theorem witness_EncBuildsTheFrame :
    ((small 16 [1, 2, 3, 4, 5, 6, 7, 8, 9]).config.csumMinSpan = 4 ∧
      (small 16 [1, 2, 3, 4, 5, 6, 7, 8, 9]).input = .ok [1, 2, 3, 4, 5, 6, 7, 8, 9]) ∧
    (small 16 [1, 2, 3, 4, 5, 6, 7, 8, 9, 10]).input = .ok [1, 2, 3, 4, 5, 6, 7, 8, 9, 10] := by decide

/-- The payload length that only the length field refuses. -/
theorem witness_EncBuildsTheFrame_longest :
    (small 70000 (List.replicate 65536 0x00)).input = .ok (List.replicate 65536 0x00) ∧
    (small 70000 (List.replicate 65536 0x00)).config.csumMinSpan = 4 ∧
    65535 < (List.replicate 65536 (0x00#8)).length ∧ (List.replicate 65536 (0x00#8)).length + 7 ≤ 70000 :=
  ⟨State.placeInput_input _ _ (by simp only [List.length_replicate]; decide), rfl,
    by simp only [List.length_replicate]; decide, by simp only [List.length_replicate]; decide⟩

theorem witness_EncInvDeliversTheInventoryCommand : (small 7 []).config.IsFcodec := by decide

theorem witness_EncInvEqualsClrThenEnc : (small 7 [0xBB, 0x7E]).config.IsFcodec := by decide

/-- Payload lengths 0, 3 and 4; `witness_PayloadRoundTrip` has the longest. -/
theorem witness_EncodedFramesHaveTheirProperties : Config.standard.csumMinSpan = 4 ∧ Config.standard.tagMinLen = 11 ∧
    ([] : List Byte).length < 3 ∧ [0xC4#8, 0x30#8, 0x00#8].length = 3 ∧
    4 ≤ [0xC4#8, 0x30#8, 0x00#8, 0xE2#8].length := by decide

theorem witness_PayloadRoundTrip : (List.replicate 65535 (0xFF#8)).length ≤ 65535 := by
  rw [List.length_replicate]

theorem witness_FrameBytesRoundTrip : ∃ f : Frame, frameAt errFrame = some f ∧
    f.payload.length = f.payloadLength.toNat :=
  ⟨⟨0xBB, 0x01, 0xFF, 1, [0x15], 0x16, 0x7E⟩, by decide, by decide⟩

/-- One byte below the threshold, and at it. -/
theorem witness_CsumSumsTheInput : (loaded [1, 2, 3]).config.csumMinSpan = 4 ∧ (loaded [1, 2, 3]).input = .ok [1, 2, 3] ∧
    (loaded [0, 0x22, 0, 0]).input = .ok [0, 0x22, 0, 0] := by decide

theorem witness_ChecksumArithmetic : Config.standard.csumMinSpan = 4 ∧ 4 ≤ [0x00#8, 0x22#8, 0x00#8, 0x00#8].length ∧
    [0x00#8, 0x22#8, 0x00#8, 0x00#8].Perm [0x22#8, 0x00#8, 0x00#8, 0x00#8] ∧
    (4 ≤ [0x00#8, 0x00#8, 0x00#8, 0x00#8].length ∧ ∀ x ∈ [0x00#8, 0x00#8, 0x00#8, 0x00#8], x = 0x00#8) := by decide

/-- Six bytes, a frame one byte short, a frame that verifies and one that does not. -/
theorem witness_VerifyJudgesTheChecksum : (loaded (errFrame.take 6)).config.csumMinSpan = 4 ∧
    (loaded (errFrame.take 6)).input = .ok (errFrame.take 6) ∧
    ((loaded (errFrame.take 7)).input = .ok (errFrame.take 7) ∧ ¬ Complete (errFrame.take 7)) ∧
    ((loaded errFrame).input = .ok errFrame ∧ Complete errFrame ∧ checksumByte errFrame = spanSum errFrame) ∧
    (loaded badTagFrame).input = .ok badTagFrame ∧ Complete badTagFrame ∧
      checksumByte badTagFrame ≠ spanSum badTagFrame := by decide

theorem witness_WfchkReportsTheClauses : (loaded errFrame).config.csumMinSpan = 4 ∧
    (loaded errFrame).input = .ok errFrame ∧ Complete errFrame ∧
    (loaded (errFrame.take 7)).input = .ok (errFrame.take 7) ∧ ¬ Complete (errFrame.take 7) := by decide

/-- Frame type, command, first and last byte of the payload and the checksum byte; header and terminator. -/
theorem witness_SingleByteChangesAreDetected : Config.standard.csumMinSpan = 4 ∧ Complete tagFrame ∧
    (wfClauses Config.standard tagFrame).c = true ∧ lenField tagFrame = 5 ∧
    0x03#8 ≠ byteAt tagFrame 1 ∧ 0x23#8 ≠ byteAt tagFrame 2 ∧ 0xC5#8 ≠ byteAt tagFrame 5 ∧
    0x01#8 ≠ byteAt tagFrame 9 ∧ 0x00#8 ≠ byteAt tagFrame 10 := by decide

/-- Six bytes, a wrong header, a frame one byte short, a complete frame. -/
theorem witness_PextExtractsThePayload : (loaded (errFrame.take 6)).input = .ok (errFrame.take 6) ∧
    ((loaded noHeader).input = .ok noHeader ∧ 7 ≤ noHeader.length ∧ byteAt noHeader 0 ≠ 0xBB#8) ∧
    ((loaded (errFrame.take 7)).input = .ok (errFrame.take 7) ∧ byteAt (errFrame.take 7) 0 = 0xBB#8) ∧
    (loaded tagFrame).input = .ok tagFrame := by decide

theorem witness_DecodedFieldsAreThePayload :
    decRef Config.standard tag3 = .ok (.tagDetected 0xC4 0x3000 []) ∧
    (decRef Config.standard errFrame = .ok (.errorReported 0x15) ∧ pext errFrame = .ok [0x15] ∧ [0x15#8] ≠ []) ∧
    Config.standard.tagMinLen = 11 := by decide

theorem witness_ShortInputIsTooShort : (loadedCe (errFrame.take 6)).input = .ok (errFrame.take 6) ∧
    (errFrame.take 6).length < 7 := by decide

theorem witness_WrongHeaderIsBadHeader : (loaded [0xBA, 0, 0, 0, 0, 0, 0]).input = .ok [0xBA, 0, 0, 0, 0, 0, 0] ∧
    StartsWith [0xBA, 0, 0, 0, 0, 0, 0] 0xBA 0 0 ∧ 0xBA#8 ≠ 0xBB#8 ∧
    (Instr.frameNoHeader 0xBA 0 0 = .dec ∨ Instr.frameNoHeader 0xBA 0 0 = .frameNoHeader 0xBA 0 0) := by decide

/-- With CE = 1: incomplete, a wrong checksum, an error report, another response; with CE = 0 the gate is off. -/
theorem witness_ResponsesAreReportedOrUnrecognized : (loadedCe errFrame).config.csumMinSpan = 4 ∧
    ((loadedCe (errFrame.take 7)).input = .ok (errFrame.take 7) ∧ StartsWith (errFrame.take 7) 0xBB 0x01 0xFF) ∧
    ((loadedCe (errFrame.set 6 0)).input = .ok (errFrame.set 6 0) ∧
      checksumByte (errFrame.set 6 0) ≠ spanSum (errFrame.set 6 0)) ∧
    ((loadedCe errFrame).input = .ok errFrame ∧ (loadedCe errFrame).cfg.getLsbD 0 = true) ∧
    ((loadedCe rspFrame).input = .ok rspFrame ∧ StartsWith rspFrame 0xBB 0x01 0x22) ∧
    (loaded longRsp).input = .ok longRsp ∧ StartsWith longRsp 0xBB 0x01 0x03 ∧ (loaded longRsp).cfg.getLsbD 0 = false := by
  decide

/-- PL = 2; ten bytes; the least event; a wrong checksum behind the gate. -/
theorem witness_TagNotificationDeliversTheTag :
    ((loaded tag2).config.csumMinSpan = 4 ∧ (loaded tag2).config.tagMinLen = 11 ∧ (loaded tag2).input = .ok tag2 ∧
      StartsWith tag2 0xBB 0x02 0x22) ∧
    (loaded (tag3.take 10)).input = .ok (tag3.take 10) ∧
    ((loadedCe tag3).input = .ok tag3 ∧ checksumByte tag3 = spanSum tag3) ∧
    (loadedCe badTagFrame).input = .ok badTagFrame ∧ StartsWith badTagFrame 0xBB 0x02 0x22 := by decide

theorem witness_EverythingElseIsUnknownShape :
    ((loaded invFrame).input = .ok invFrame ∧ StartsWith invFrame 0xBB 0x00 0x22 ∧
      ¬ (0x00#8 = 0x02#8 ∧ 0x22#8 = 0x22#8)) ∧
    (loadedCe otherFrame).input = .ok otherFrame ∧ StartsWith otherFrame 0xBB 0x02 0x27 ∧
      ¬ (0x02#8 = 0x00#8 ∧ 0x27#8 = 0x22#8) := by decide

/-- A frame row in a state whose input starts otherwise, and one whose input is too short. -/
theorem witness_FrameRowsRunTheirPathOnAnyInput : (loadedCe noHeader).config.csumMinSpan = 4 ∧
    (loadedCe noHeader).config.tagMinLen = 11 ∧ (loadedCe noHeader).input = .ok noHeader ∧ 7 ≤ noHeader.length ∧
    (loaded (errFrame.take 6)).input = .ok (errFrame.take 6) ∧ Instr.decodes .frameNtfTag = true ∧
    (loaded tag2).input = .ok tag2 ∧ (loadedCe tag3).input = .ok tag3 ∧ (loadedCe badTagFrame).input = .ok badTagFrame := by
  decide

/-- One input for each of the eight results. -/
theorem witness_DecDeliversItsResult :
    ((loaded tagFrame).input = .ok tagFrame ∧
      dec Config.standard false tagFrame = .ok (.tagDetected 0xC4 0x3000 [0xE2, 0x00])) ∧
    ((loaded errFrame).input = .ok errFrame ∧ dec Config.standard false errFrame = .ok (.errorReported 0x15)) ∧
    ((loaded rspFrame).input = .ok rspFrame ∧ dec Config.standard false rspFrame = .ok .unrecognized) ∧
    dec Config.standard true (errFrame.take 6) = .error .tooShort ∧
    dec Config.standard true noHeader = .error .badHeader ∧
    dec Config.standard false tag2 = .error .incompletePayload ∧
    ((loadedCe badTagFrame).input = .ok badTagFrame ∧ dec Config.standard true badTagFrame = .error .badChecksum) ∧
    dec Config.standard true invFrame = .error .unknownShape := by decide

theorem witness_TagEventsFitTheirFrame : Config.standard.tagMinLen = 11 ∧
    dec Config.standard true tag3 = .ok (.tagDetected 0xC4 0x3000 []) := by decide

theorem witness_ChecksumGateReplacesEventsOnly :
    decRef Config.standard tag2 = .error .incompletePayload ∧
    (decRef Config.standard errFrame = .ok (.errorReported 0x15) ∧ verify Config.standard errFrame = .ok 0x16) ∧
    (decRef Config.standard (errFrame.take 7) = .ok (.errorReported 0x15) ∧
      verify Config.standard (errFrame.take 7) = .error .incompletePayload) ∧
    decRef Config.standard (errFrame.set 6 0) = .ok (.errorReported 0x15) ∧
      verify Config.standard (errFrame.set 6 0) = .error .badChecksum := by decide

theorem witness_TrailingBytesNeverChangeAnEvent :
    dec Config.standard true tagFrame = .ok (.tagDetected 0xC4 0x3000 [0xE2, 0x00]) ∧
    dec Config.standard false noHeader = .error .badHeader ∧ dec Config.standard true otherFrame = .error .unknownShape ∧
    dec Config.standard true badTagFrame = .error .badChecksum := by decide

/-- Two states that differ in every register DEC does not read. -/
theorem witness_DecDependsOnInputAndCeAlone :
    (loaded tagFrame).input = .ok tagFrame ∧ ((((loaded tagFrame).setRes 0x07).setErrcode 0x15).setCsr 0x22).input = .ok tagFrame ∧
    (loaded tagFrame).config = ((((loaded tagFrame).setRes 0x07).setErrcode 0x15).setCsr 0x22).config ∧
    (loaded tagFrame).cfg.getLsbD 0 = ((((loaded tagFrame).setRes 0x07).setErrcode 0x15).setCsr 0x22).cfg.getLsbD 0 := by
  decide

theorem witness_SecondDecGivesTheSameState : (small 16 tagFrame).Inv ∧
    ∃ t, exec .dec (small 16 tagFrame) = .next t ∧ t.res = 0xA0 := ⟨by decide, exists_of_gives (by decide)⟩

/-- A step of each operation that writes something, into a register that held something else. -/
theorem witness_WriteSetsOfTheOperations :
    (∃ t, exec (.push 0xBB) State.reset = .next t ∧ t.ibuf ≠ State.reset.ibuf ∧ t.ilen ≠ State.reset.ilen) ∧
    (∃ t, exec (.push 0x44) (small 8 errFrame) = .next t ∧ t.flg ≠ (small 8 errFrame).flg) ∧
    (∃ t, exec (.setcfg 0x01) State.reset = .next t ∧ t.cfg ≠ State.reset.cfg) ∧
    (∃ t, exec .wfchk (loaded tagFrame) = .next t ∧ t.wf ≠ (loaded tagFrame).wf ∧ t.csr ≠ (loaded tagFrame).csr) ∧
    (∃ t, exec .dec (loaded tagFrame) = .next t ∧ t.rssi ≠ (loaded tagFrame).rssi ∧ t.olen ≠ (loaded tagFrame).olen ∧
      t.res ≠ (loaded tagFrame).res) ∧
    ∃ t, exec .frameRspErr (loaded errFrame) = .next t ∧ t.errcode ≠ (loaded errFrame).errcode :=
  ⟨exists_of_gives (by decide), exists_of_gives (by decide), exists_of_gives (by decide), exists_of_gives (by decide),
    exists_of_gives (by decide), exists_of_gives (by decide)⟩

/-- A payload of five bytes written over an output of twelve: index 5 is the first byte kept. -/
theorem witness_OutputBytesBeyondOlenAreKept : ∃ t, exec .pext ((loaded tagFrame).setOutput tagFrame) = .next t ∧
    t.olen ≤ 5 ∧ t.obuf ≠ ((loaded tagFrame).setOutput tagFrame).obuf := exists_of_gives (by decide)

/-- Two states with one input that differ in registers rule R26 leaves unspecified, in the counter of free values and in a
byte of IBUF at ILEN. -/
theorem witness_NoOperationReadsAnUnspecifiedValue :
    (small 16 tagFrame).Inv ∧ (otherUnspecified (small 16 tagFrame)).Inv ∧
    (otherUnspecified (small 16 tagFrame)).input = (small 16 tagFrame).input ∧
    (otherUnspecified (small 16 tagFrame)).res = (small 16 tagFrame).res ∧
    (otherUnspecified (small 16 tagFrame)).flg = (small 16 tagFrame).flg ∧
    (otherUnspecified (small 16 tagFrame)).cfg = (small 16 tagFrame).cfg ∧
    (otherUnspecified (small 16 tagFrame)).config = (small 16 tagFrame).config ∧
    (otherUnspecified (small 16 tagFrame)).ibuf ≠ (small 16 tagFrame).ibuf := by decide

/-- VERIFY on a wrong checksum: the one failure that writes CSR. -/
theorem witness_FailureChangesResOnly : ∃ t, exec .verify (loaded badTagFrame) = .next t ∧
    Instr.computes .verify = true ∧ t.res.getLsbD 7 = false ∧ t.csr ≠ (loaded badTagFrame).csr :=
  exists_of_gives (by decide)

theorem witness_ResSaysOneOutcome :
    (∃ t, exec .dec (loaded errFrame) = .next t ∧ Instr.computes .dec = true ∧ t.res.getLsbD 7 = true ∧
      t.res.extractLsb' 5 2 ≠ 0#2) ∧
    (∃ t, exec .dec (loaded invFrame) = .next t ∧ t.res.getLsbD 7 = false) ∧
    ∃ t, exec .clr (loaded invFrame) = .next t ∧ Instr.computes .clr = false :=
  ⟨exists_of_gives (by decide), exists_of_gives (by decide), exists_of_gives (by decide)⟩

/-- A command and a reset, from a state that meets the invariant with a full input. -/
theorem witness_EveryStepKeepsTheInvariant :
    (((small 12 tagFrame).setScript [.command 0x90000]).Inv ∧
      ∃ t, step ((small 12 tagFrame).setScript [.command 0x90000]) = .next t ∧ t.res = 0xA0) ∧
    ((small 12 tagFrame).setScript [.reset]).Inv ∧
      ∃ t, step ((small 12 tagFrame).setScript [.reset]) = .next t ∧ t.res = 0x00 :=
  ⟨⟨by decide, exists_of_gives (by decide)⟩, by decide, exists_of_gives (by decide)⟩

theorem witness_EveryStepCompletes : ((small 8 errFrame).setScript [.command 0x24400]).Inv := by decide

theorem witness_BufferReadsAfterWrites : Memory.wf [(0, 0xBB#8), (2, 0x7E#8)] = true ∧ (1 : Nat) ≠ 0 ∧
    ∀ k, Memory.read [(0, 0xBB#8)] k = Memory.read (Memory.write [] 0 0xBB) k := ⟨by decide, by decide, fun _ => rfl⟩

theorem witness_HostReadsTheOutput : ((loaded []).setOutput invFrame).output = .ok invFrame ∧ 6 < invFrame.length := by decide

/-- The last index and the first beyond it. -/
theorem witness_EveryBufferByteHoldsAValue : 6 < (small 7 []).config.bufCap ∧ (small 7 []).config.bufCap ≤ 7 := by decide

/-- The least payload a tag event needs, in a machine in which its frame just fits. -/
theorem witness_EncodeLoopbackDecodeRoundTrip : (small 11 [0xC4, 0x30, 0x00, 0xE2]).config.IsFcodec ∧
    (small 11 [0xC4, 0x30, 0x00, 0xE2]).input = .ok [0xC4, 0x30, 0x00, 0xE2] ∧
    4 ≤ [0xC4#8, 0x30#8, 0x00#8, 0xE2#8].length ∧
    [0xC4#8, 0x30#8, 0x00#8, 0xE2#8].length + 7 ≤ (small 11 [0xC4, 0x30, 0x00, 0xE2]).config.bufCap := by decide

end Sys2Proof.Tests
end

/-! # Proofs of the statements about the state (10_state.md) -/

/-! ## What an instruction can do to a state -/

namespace Sys2Proof

theorem Instr.computes_of_decodes {i : Instr} (h : i.decodes = true) : i.computes = true := by
  cases i <;> simp_all [Instr.decodes, Instr.computes]

theorem Instr.not_computes_of_isReserved {i : Instr} (h : i.isReserved = true) : i.computes = false := by
  cases i <;> simp_all [Instr.isReserved, Instr.computes]

end Sys2Proof

namespace Sys2Proof.Machine

/-- Everything an instruction can do to a state it answers, one constructor a result (the rows of 10_state.md rule R23):
`exec_effect` ties it to `exec`. -/
inductive Effect (s : State) : Instr → State → Prop where
  | clear : Effect s .clr ((s.setIlen 0).setFlg (flgClearOvf s.flg))
  | push (x : Byte) (hroom : s.ilen < s.config.bufCap) : Effect s (.push x) (s.pushInput x)
  | overflow (x : Byte) (hfull : s.config.bufCap ≤ s.ilen) : Effect s (.push x) (s.setFlg (flgSetOvf s.flg))
  | configure (v : Byte) : Effect s (.setcfg v) (s.setCfg (cfgOf v))
  | reserved (i : Instr) (hi : i.isReserved = true) : Effect s i s
  | failed (i : Instr) (f : Failure) (hi : i.computes = true) : Effect s i (s.setRes (resFail f))
  | frame (i : Instr) (bs : List Byte) (k : Byte) (hi : (∃ a b, i = .enc a b) ∨ i = .encInv)
      (hfits : bs.length ≤ s.config.bufCap) : Effect s i (((s.setOutput bs).setCsr k).setRes 0x80#8)
  | checksum (k : Byte) : Effect s .csum ((s.setCsr k).setRes 0x80#8)
  | verified (k : Byte) : Effect s .verify ((s.setCsr k).setRes 0x80#8)
  | mismatch (k : Byte) : Effect s .verify ((s.setCsr k).setRes 0x04#8)
  | checked (w : WfClauses) (k : Byte) (hk : w.l = false → k = s.csr) :
      Effect s .wfchk (((s.setWf w.word).setCsr k).setRes 0x80#8)
  | payload (p : List Byte) (hfits : p.length ≤ s.config.bufCap) : Effect s .pext ((s.setOutput p).setRes 0x80#8)
  | tag (i : Instr) (x : Byte) (pc : BitVec 16) (epc : List Byte) (hi : i = .dec ∨ i = .frameNtfTag)
      (hfits : epc.length ≤ s.config.bufCap) : Effect s i (((s.setOutput epc).setTag x pc).setRes 0xA0#8)
  | errorReport (i : Instr) (code : Byte) (hi : i = .dec ∨ i = .frameRspErr) :
      Effect s i ((s.setErrcode code).setRes 0xC0#8)
  | unrecognized (i : Instr) (hi : i.decodes = true) : Effect s i (s.setRes 0xE0#8)

variable {s t u : State} {i : Instr}

/-- What DEC or a frame row can do, from the events its path can give. -/
theorem Effect.of_decodeBy {path : DecodePath} (hi : i.decodes = true)
    (htag : ∀ b h7 x pc epc, path b h7 = .ok (.tagDetected x pc epc) → i = .dec ∨ i = .frameNtfTag)
    (herr : ∀ b h7 code, path b h7 = .ok (.errorReported code) → i = .dec ∨ i = .frameRspErr)
    (h : s.decodeBy path = .next t) : Effect s i t := by
  obtain ⟨b, -, ⟨h7, x, pc, epc, hp, hl, rfl⟩ | ⟨h7, code, hp, rfl⟩ | ⟨h7, hp, rfl⟩ | ⟨f, rfl⟩⟩ :=
    State.decodeBy_delivers h
  · exact .tag i x pc epc (htag b h7 x pc epc hp) hl
  · exact .errorReport i code (herr b h7 code hp)
  · exact .unrecognized i hi
  · exact .failed i (.decode f) (Instr.computes_of_decodes hi)

theorem Effect.of_verify (h : execVerify s = .next t) : Effect s .verify t := by
  rcases execVerify_next h with ⟨k, rfl⟩ | ⟨k, rfl⟩ | rfl | rfl
  · exact .verified k
  · exact .mismatch k
  · exact .failed .verify (.decode .tooShort) rfl
  · exact .failed .verify (.decode .incompletePayload) rfl

theorem Effect.of_enc {a c : Byte} (h : execEnc a c s = .next t) : Effect s (.enc a c) t := by
  rcases execEnc_next h with rfl | ⟨p, -, hl, rfl⟩
  · exact .failed _ .operandRange rfl
  · exact .frame _ _ _ (.inl ⟨a, c, rfl⟩) hl

theorem Effect.of_pext (h : execPext s = .next t) : Effect s .pext t := by
  rcases execPext_next h with ⟨p, hl, rfl⟩ | ⟨f, rfl⟩
  · exact .payload p hl
  · exact .failed _ _ rfl

theorem Effect.of_push {x : Byte} (h : execPush x s = .next t) : Effect s (.push x) t := by
  rcases execPush_next h with ⟨hroom, rfl⟩ | ⟨hfull, rfl⟩
  · exact .push x hroom
  · exact .overflow x hfull

/-- Whatever an instruction answers is one of its effects. -/
theorem exec_effect (h : exec i s = .next t) : Effect s i t := by
  cases i with
  | clr => cases h; exact .clear
  | push x => exact .of_push h
  | enc a c => exact .of_enc h
  | encInv => obtain ⟨hl, rfl⟩ := State.deliverFrame_next h; exact .frame _ _ _ (.inr rfl) hl
  | csum => obtain ⟨b, -, rfl⟩ := execCsum_next h; exact .checksum _
  | verify => exact .of_verify h
  | wfchk => obtain ⟨w, k, rfl, hk⟩ := execWfchk_next h; exact .checked w k hk
  | pext => exact .of_pext h
  | dec => exact .of_decodeBy rfl (fun _ _ _ _ _ _ => .inl rfl) (fun _ _ _ _ => .inl rfl) h
  | setcfg v => cases h; exact .configure v
  | reserved0 | reservedB | reservedC | reservedD | reservedE | reservedF => cases h; exact .reserved _ rfl
  | frameRspErr => exact .of_decodeBy rfl (fun _ _ _ _ _ h => by cases h) (fun _ _ _ _ => .inr rfl) h
  | frameNtfTag =>
    refine .of_decodeBy rfl (fun _ _ _ _ _ _ => .inr rfl) (fun b h7 code hp => ?_) h
    obtain ⟨x, pc, epc, he, -⟩ := tagPath_ok hp
    cases he
  | frameRspOther | frameCmdInv | frameOther | frameNoHeader =>
    exact .of_decodeBy rfl (fun _ _ _ _ _ h => by cases h) (fun _ _ _ h => by cases h) h

/-! ## The bits of FLG, CFG, WF and RES -/

theorem getLsbD_flgSetOvf (f : BitVec 8) (k : Nat) : (flgSetOvf f).getLsbD k = (f.getLsbD k || decide (k = 0)) := by
  cases k <;> simp [flgSetOvf]

theorem getLsbD_flgClearOvf (f : BitVec 8) (k : Nat) :
    (flgClearOvf f).getLsbD k = (f.getLsbD k && !decide (k = 0)) := by
  by_cases hk : k < 8
  · rw [flgClearOvf, BitVec.getLsbD_and]
    congr 1
    revert k
    decide
  · simp [BitVec.getLsbD_of_ge _ k (Nat.not_lt.mp hk)]

/-- Writing OVF keeps the reserved bits of FLG. -/
theorem extractLsb'_flgSetOvf (f : BitVec 8) : (flgSetOvf f).extractLsb' 1 7 = f.extractLsb' 1 7 := by
  ext k hk
  simp [getLsbD_flgSetOvf]

theorem extractLsb'_flgClearOvf (f : BitVec 8) : (flgClearOvf f).extractLsb' 1 7 = f.extractLsb' 1 7 := by
  ext k hk
  simp [getLsbD_flgClearOvf]

theorem extractLsb'_cfgOf (v : Byte) : (cfgOf v).extractLsb' 1 7 = 0#7 := by
  ext k hk
  simp [cfgOf]

theorem extractLsb'_cfgReset (ce : Bool) : (cfgReset ce).extractLsb' 1 7 = 0#7 := by
  cases ce <;> decide

theorem extractLsb'_and_0x1F (w : BitVec 8) : (w &&& 0x1F#8).extractLsb' 5 3 = 0#3 := by
  ext k hk
  rw [BitVec.getElem_extractLsb', BitVec.getLsbD_and, Bool.and_eq_false_iff.mpr (.inr ?_)]
  · simp
  · revert k; decide

end Sys2Proof.Machine

/-! ## Which register an effect writes, and when (10_state.md rule R23) -/

namespace Sys2Proof.Machine

variable {s t : State} {i : Instr}

theorem Effect.parameters_script_kept (h : Effect s i t) :
    t.config = s.config ∧ t.script = s.script ∧ t.freeCount = s.freeCount := by
  cases h <;> exact ⟨rfl, rfl, rfl⟩

theorem Effect.ibuf_changed (h : Effect s i t) (hne : t.ibuf ≠ s.ibuf) : ∃ x, i = .push x := by
  cases h <;> simp at hne ⊢

theorem Effect.ilen_changed (h : Effect s i t) (hne : t.ilen ≠ s.ilen) : i = .clr ∨ ∃ x, i = .push x := by
  cases h <;> simp at hne ⊢

/-- FLG changes by CLR, or by a PUSH into a full buffer, which leaves the input as it was. -/
theorem Effect.flg_cases (h : Effect s i t) :
    t.flg = s.flg ∨ (i = .clr ∧ t.flg = flgClearOvf s.flg) ∨
      ((∃ x, i = .push x) ∧ s.config.bufCap ≤ s.ilen ∧ t.flg = flgSetOvf s.flg ∧ t.ibuf = s.ibuf ∧ t.ilen = s.ilen) := by
  cases h with
  | clear => exact .inr (.inl ⟨rfl, rfl⟩)
  | overflow x hfull => exact .inr (.inr ⟨⟨x, rfl⟩, hfull, rfl, rfl, rfl⟩)
  | _ => exact .inl rfl

/-- Only OVF of FLG ever changes. -/
theorem Effect.flg_changed (h : Effect s i t) (hne : t.flg ≠ s.flg) :
    (i = .clr ∨ ∃ x, i = .push x) ∧ ∀ k, 0 < k → t.flg.getLsbD k = s.flg.getLsbD k := by
  rcases h.flg_cases with hf | ⟨hi, hf⟩ | ⟨hi, -, hf, -⟩
  · exact absurd hf hne
  · exact ⟨.inl hi, fun k hk => by rw [hf, getLsbD_flgClearOvf]; simp [hk.ne']⟩
  · exact ⟨.inr hi, fun k hk => by rw [hf, getLsbD_flgSetOvf]; simp [hk.ne']⟩

theorem Effect.push_writes_flg_or_input {x : Byte} (h : Effect s (.push x) t) :
    t.flg = s.flg ∨ (t.ibuf = s.ibuf ∧ t.ilen = s.ilen) := by
  rcases h.flg_cases with hf | ⟨hi, -⟩ | ⟨-, -, -, hin⟩
  · exact .inl hf
  · cases hi
  · exact .inr hin

theorem Effect.cfg_changed (h : Effect s i t) (hne : t.cfg ≠ s.cfg) : ∃ v, i = .setcfg v := by
  cases h <;> simp at hne ⊢

theorem Effect.wf_changed (h : Effect s i t) (hne : t.wf ≠ s.wf) : i = .wfchk := by
  cases h <;> simp at hne ⊢

theorem Effect.tag_changed (h : Effect s i t) (hne : t.rssi ≠ s.rssi ∨ t.pcw ≠ s.pcw) :
    (i = .dec ∨ i = .frameNtfTag) ∧ t.res = 0xA0#8 := by
  cases h with
  | tag _ x pc epc hi => exact ⟨hi, rfl⟩
  | _ => simp at hne

theorem Effect.errcode_changed (h : Effect s i t) (hne : t.errcode ≠ s.errcode) :
    (i = .dec ∨ i = .frameRspErr) ∧ t.res = 0xC0#8 := by
  cases h with
  | errorReport _ code hi => exact ⟨hi, rfl⟩
  | _ => simp at hne

theorem Effect.output_changed (h : Effect s i t) (hne : t.obuf ≠ s.obuf ∨ t.olen ≠ s.olen) :
    (((∃ a b, i = .enc a b) ∨ i = .encInv ∨ i = .pext) ∧ t.res = 0x80#8) ∨
      ((i = .dec ∨ i = .frameNtfTag) ∧ t.res = 0xA0#8) := by
  cases h with
  | frame _ bs k hi => exact .inl ⟨hi.imp_right .inl, rfl⟩
  | payload p => exact .inl ⟨.inr (.inr rfl), rfl⟩
  | tag _ x pc epc hi => exact .inr ⟨hi, rfl⟩
  | _ => simp at hne

/-- WFCHK writes CSR only where the length clause, WF bit 1, holds. -/
theorem Effect.csr_changed (h : Effect s i t) (hne : t.csr ≠ s.csr) :
    (((∃ a b, i = .enc a b) ∨ i = .encInv ∨ i = .csum) ∧ t.res = 0x80#8) ∨
      (i = .verify ∧ (t.res = 0x80#8 ∨ t.res = 0x04#8)) ∨ (i = .wfchk ∧ t.wf.getLsbD 1 = true) := by
  cases h with
  | frame _ bs k hi => exact .inl ⟨hi.imp_right .inl, rfl⟩
  | checksum k => exact .inl ⟨.inr (.inr rfl), rfl⟩
  | verified k => exact .inr (.inl ⟨rfl, .inl rfl⟩)
  | mismatch k => exact .inr (.inl ⟨rfl, .inr rfl⟩)
  | checked w k hk =>
    obtain ⟨-, hl, -⟩ := w.word_bits
    exact .inr (.inr ⟨rfl, hl.trans (Bool.eq_true_of_not_eq_false fun hw => hne (hk hw))⟩)
  | _ => simp at hne

theorem Effect.res_kept (h : Effect s i t) (hi : i.computes = false) : t.res = s.res := by
  cases h with
  | clear | push | overflow | configure | reserved => rfl
  | failed _ _ hc => rw [hc] at hi; cases hi
  | unrecognized _ hd => rw [Instr.computes_of_decodes hd] at hi; cases hi
  | frame _ _ _ he => rcases he with ⟨a, b, rfl⟩ | rfl <;> cases hi
  | tag _ _ _ _ he | errorReport _ _ he => rcases he with rfl | rfl <;> cases hi
  | checksum | verified | mismatch | checked | payload => cases hi

/-- RES after an operation that computes: a failure, a success, or the event of a decode (R15 to R17). -/
theorem Effect.res_cases (h : Effect s i t) (hi : i.computes = true) :
    (∃ f, t.res = resFail f) ∨ t.res = 0x80#8 ∨
      (i.decodes = true ∧ (t.res = 0xA0#8 ∨ t.res = 0xC0#8 ∨ t.res = 0xE0#8)) := by
  cases h with
  | clear | push | overflow | configure => cases hi
  | reserved _ hr => rw [Instr.not_computes_of_isReserved hr] at hi; cases hi
  | failed _ f => exact .inl ⟨f, rfl⟩
  | mismatch => exact .inl ⟨.decode .badChecksum, rfl⟩
  | frame | checksum | verified | checked | payload => exact .inr (.inl rfl)
  | tag _ _ _ _ he => exact .inr (.inr ⟨by rcases he with rfl | rfl <;> rfl, .inl rfl⟩)
  | errorReport _ _ he => exact .inr (.inr ⟨by rcases he with rfl | rfl <;> rfl, .inr (.inl rfl)⟩)
  | unrecognized _ hd => exact .inr (.inr ⟨hd, .inr (.inr rfl)⟩)

/-- Settles O44: one lemma a register over the effects of `exec_effect`. -/
theorem writeSetsOfTheOperations : Obligations.WriteSetsOfTheOperations := by
  intro s t i h
  have he := exec_effect h
  obtain ⟨hconfig, hscript, hcount⟩ := he.parameters_script_kept
  refine ⟨hconfig, hscript, hcount, he.ibuf_changed, he.ilen_changed, he.flg_changed, ?_, he.cfg_changed, fun hne => ?_,
    he.wf_changed, he.tag_changed, he.errcode_changed, he.output_changed, he.csr_changed⟩
  · rintro x rfl
    exact he.push_writes_flg_or_input
  · exact Bool.eq_true_of_not_eq_false fun hi => hne (he.res_kept hi)

/-- Settles O15: FLG changes only as `Effect.flg_cases` says. -/
theorem overflowFlagIsSticky : Obligations.OverflowFlagIsSticky := by
  intro s t i h
  rcases (exec_effect h).flg_cases with hf | ⟨hi, hf⟩ | ⟨hi, hfull, hf, -⟩
  · rw [hf]
    exact ⟨fun hset _ => hset, fun hclear hset => absurd (hclear.symm.trans hset) Bool.false_ne_true⟩
  · refine ⟨fun _ hne => absurd hi hne, fun _ hset => ?_⟩
    rw [hf, getLsbD_flgClearOvf] at hset
    simp at hset
  · refine ⟨fun _ _ => ?_, fun _ _ => ⟨hfull, hi⟩⟩
    rw [hf, getLsbD_flgSetOvf]
    simp

/-- A failure in RES: one code, no event, reserved bits 0 (R15, R17). -/
theorem resFail_fields (f : Failure) :
    (resFail f).getLsbD 7 = false ∧ (resFail f).extractLsb' 5 2 = 0#2 ∧ (resFail f).extractLsb' 3 2 = 0#2 ∧
      (resFail f).extractLsb' 0 3 ≠ 0#3 ∧ resFail f ≠ 0x00#8 := by
  cases f with
  | decode f => cases f <;> decide
  | operandRange => decide

/-- Settles O48: by the three kinds of RES that `Effect.res_cases` leaves. -/
theorem resSaysOneOutcome : Obligations.ResSaysOneOutcome := by
  intro s t i h
  refine ⟨fun hi => ?_, (exec_effect h).res_kept⟩
  rcases (exec_effect h).res_cases hi with ⟨f, hr⟩ | hr | ⟨hd, hr⟩
  · obtain ⟨hok, hevt, hreserved, hfail, hne⟩ := resFail_fields f
    rw [hr]
    exact ⟨hne, hreserved, fun h7 => absurd (hok.symm.trans h7) Bool.false_ne_true, fun _ => ⟨hfail, hevt⟩,
      fun h65 => absurd hevt h65⟩
  · rw [hr]
    exact ⟨by decide, by decide, by decide, by decide, fun h65 => absurd (by decide) h65⟩
  · simp only [hd]
    rcases hr with hr | hr | hr <;> rw [hr] <;> decide

/-! ## The invariant -/

theorem State.Inv.flg_reserved (hs : s.Inv) : s.flg.extractLsb' 1 7 = 0#7 := by
  obtain ⟨-, -, -, -, -, -, -, -, -, hflg, -⟩ := hs
  exact hflg

/-- Every effect keeps the invariant. -/
theorem Effect.inv (h : Effect s i t) (hs : s.Inv) : t.Inv := by
  cases h with
  | clear => exact hs.setIlen_zero.setFlg ((extractLsb'_flgClearOvf _).trans hs.flg_reserved)
  | push x hroom => exact hs.pushInput x hroom
  | overflow => exact hs.setFlg ((extractLsb'_flgSetOvf _).trans hs.flg_reserved)
  | configure v => exact hs.setCfg (extractLsb'_cfgOf v)
  | reserved => exact hs
  | failed _ f => exact hs.setRes (resLegal_resFail f)
  | frame _ bs k _ hfits => exact ((hs.setOutput hfits).setCsr k).setRes resLegal_resOk
  | checksum k | verified k => exact (hs.setCsr k).setRes resLegal_resOk
  | mismatch k => exact (hs.setCsr k).setRes (resLegal_resFail (.decode .badChecksum))
  | checked w k =>
    obtain ⟨-, -, -, -, -, hreserved⟩ := w.word_bits
    exact ((hs.setWf hreserved).setCsr k).setRes resLegal_resOk
  | payload p hfits => exact (hs.setOutput hfits).setRes resLegal_resOk
  | tag _ x pc epc _ hfits => exact ((hs.setOutput hfits).setTag x pc).setRes (by decide)
  | errorReport _ code => exact (hs.setErrcode code).setRes (by decide)
  | unrecognized => exact hs.setRes (by decide)

theorem resLegal_zero : ResLegal 0x00#8 := by decide

/-- A reset between two operations keeps the invariant (R26). -/
theorem State.Inv.resetEvent (hs : s.Inv) : s.resetEvent.Inv :=
  ⟨hs.1, Nat.zero_le _, Nat.zero_le _, rfl, rfl, ⟨nofun, nofun⟩, ⟨nofun, nofun⟩, resLegal_zero,
    extractLsb'_and_0x1F _, (by decide : (0x00#8).extractLsb' 1 7 = 0#7), extractLsb'_cfgReset _⟩

/-- Settles O50: the host's next action is a command, a reset or none. -/
theorem everyStepKeepsTheInvariant : Obligations.EveryStepKeepsTheInvariant := by
  intro s t hs h
  match hscript : s.script with
  | [] =>
    rw [step_idle hscript] at h
    cases h
    exact hs
  | .reset :: es =>
    rw [step_reset hscript] at h
    cases h
    exact (hs.setScript es).resetEvent
  | .command w :: es =>
    rw [step_command hscript] at h
    exact (exec_effect h).inv (hs.setScript es)

/-- Settles O49: a closed fact about one state. -/
theorem invHoldsAtReset : Obligations.InvHoldsAtReset := by
  unfold Obligations.InvHoldsAtReset
  decide

/-- Settles O9: a closed fact about one state. -/
theorem resetStateHasTheSpecValues : Obligations.ResetStateHasTheSpecValues := by
  unfold Obligations.ResetStateHasTheSpecValues
  decide

/-! ## What the host reads -/

theorem State.hostRead_obuf_of_ok {k : Nat} {y : Byte} (h : s.obufByte k = .ok y) :
    s.hostRead (.obuf k) = some y.toNat := by
  simp [State.hostRead, h, Except.toOption]

theorem State.hostRead_obuf_of_ge {k : Nat} (h : s.config.bufCap ≤ k) : s.hostRead (.obuf k) = none := by
  simp [State.hostRead, State.obufByte, bufferByte_of_ge _ _ h, Except.toOption]

theorem State.output_length {o : List Byte} (h : s.output = .ok o) : o.length = s.olen :=
  ((bufferSeq_eq_ok _ _ _ _ _ _).mp h).1

/-- Settles O41: a byte of the output sequence is OBUF's byte, which the host reads. -/
theorem hostReadsTheOutput : Obligations.HostReadsTheOutput := by
  intro s o h
  refine ⟨congrArg some (State.output_length h).symm, fun k hk => ?_⟩
  rw [byteAt_eq_getElem hk]
  exact State.hostRead_obuf_of_ok (State.obufByte_of_output h hk)

/-- Settles O42: BUF_CAP alone decides whether an index is a byte. -/
theorem everyBufferByteHoldsAValue : Obligations.EveryBufferByteHoldsAValue := by
  intro s k
  constructor
  · intro hk
    exact ⟨⟨_, State.ibufByte_of_lt hk⟩, _, State.obufByte_of_lt hk, State.hostRead_obuf_of_ok (State.obufByte_of_lt hk)⟩
  · intro hk
    exact ⟨bufferByte_of_ge _ _ hk, bufferByte_of_ge _ _ hk, State.hostRead_obuf_of_ge hk⟩

end Sys2Proof.Machine

/-! ## No operation reads an unspecified value -/

namespace Sys2Proof.Machine

/-- `s'` and `u'` are reached from `s` and `u` by the same writes: what an operation may read is equal, and every result
is equal or as it was in both (10_state.md rules R25, R26). -/
structure SameResults (s u s' u' : State) : Prop where
  config : u'.config = s'.config
  res : u'.res = s'.res
  flg : u'.flg = s'.flg
  cfg : u'.cfg = s'.cfg
  ilen : u'.ilen = s'.ilen
  input : u'.input = s'.input
  tag : (u'.rssi = s'.rssi ∧ u'.pcw = s'.pcw) ∨
    (u'.rssi = u.rssi ∧ u'.pcw = u.pcw ∧ s'.rssi = s.rssi ∧ s'.pcw = s.pcw)
  errcode : u'.errcode = s'.errcode ∨ (u'.errcode = u.errcode ∧ s'.errcode = s.errcode)
  csr : u'.csr = s'.csr ∨ (u'.csr = u.csr ∧ s'.csr = s.csr)
  wf : u'.wf = s'.wf ∨ (u'.wf = u.wf ∧ s'.wf = s.wf)
  output : (u'.olen = s'.olen ∧ u'.output = s'.output) ∨
    (u'.olen = u.olen ∧ u'.output = u.output ∧ s'.olen = s.olen ∧ s'.output = s.output)

/-- Two answers that complete with the same results. -/
def SameAnswer (s u : State) (a a' : Answer) : Prop :=
  ∃ s' u', a = .next s' ∧ a' = .next u' ∧ SameResults s u s' u'

/-! ### Every register write keeps the relation -/

namespace SameResults

variable {s u s' u' : State} (h : SameResults s u s' u')
include h

theorem setRes (r : BitVec 8) : SameResults s u (s'.setRes r) (u'.setRes r) := { h with res := rfl }

theorem setCsr (k : Byte) : SameResults s u (s'.setCsr k) (u'.setCsr k) := { h with csr := .inl rfl }

theorem setCsrIf (o : Option Byte) : SameResults s u (s'.setCsrIf o) (u'.setCsrIf o) := by
  cases o with
  | none => exact h
  | some k => exact h.setCsr k

theorem setWf (w : BitVec 8) : SameResults s u (s'.setWf w) (u'.setWf w) := { h with wf := .inl rfl }

theorem setTag (x : Byte) (pc : BitVec 16) : SameResults s u (s'.setTag x pc) (u'.setTag x pc) :=
  { h with tag := .inl ⟨rfl, rfl⟩ }

theorem setErrcode (x : Byte) : SameResults s u (s'.setErrcode x) (u'.setErrcode x) := { h with errcode := .inl rfl }

theorem setFlg (f : BitVec 8) : SameResults s u (s'.setFlg f) (u'.setFlg f) := { h with flg := rfl }

theorem setCfg (c : BitVec 8) : SameResults s u (s'.setCfg c) (u'.setCfg c) := { h with cfg := rfl }

theorem setIlen_zero : SameResults s u (s'.setIlen 0) (u'.setIlen 0) := { h with ilen := rfl, input := rfl }

theorem pushInput {b : List Byte} (x : Byte) (hb : s'.input = .ok b) (hroom : s'.ilen < s'.config.bufCap) :
    SameResults s u (s'.pushInput x) (u'.pushInput x) :=
  { h with
    ilen := congrArg (· + 1) h.ilen
    input := by
      rw [State.pushInput_input x hb hroom, State.pushInput_input x (h.input.trans hb) (by rwa [h.ilen, h.config])] }

theorem setOutput {bs : List Byte} (hfits : bs.length ≤ s'.config.bufCap) :
    SameResults s u (s'.setOutput bs) (u'.setOutput bs) :=
  { h with
    output := .inl ⟨rfl, by rw [State.setOutput_output s' bs hfits, State.setOutput_output u' bs (by rwa [h.config])]⟩ }

/-! ### Every shared operation answers the same from both -/

theorem next : SameAnswer s u (.next s') (.next u') := ⟨s', u', rfl, rfl, h⟩

theorem succeed : SameAnswer s u s'.succeed u'.succeed := (h.setRes resOk).next

theorem fail (f : Failure) : SameAnswer s u (s'.fail f) (u'.fail f) := (h.setRes (resFail f)).next

theorem withInput {b : List Byte} {k k' : List Byte → Answer} (hb : s'.input = .ok b)
    (hk : SameAnswer s u (k b) (k' b)) : SameAnswer s u (s'.withInput k) (u'.withInput k') := by
  rwa [State.withInput_of_input hb, State.withInput_of_input (h.input.trans hb)]

theorem withOutput {bs : List Byte} {k k' : State → Answer} (hfits : bs.length ≤ s'.config.bufCap)
    (hk : SameAnswer s u (k (s'.setOutput bs)) (k' (u'.setOutput bs))) :
    SameAnswer s u (s'.withOutput bs k) (u'.withOutput bs k') := by
  rwa [State.withOutput_of_le hfits, State.withOutput_of_le (by rwa [h.config])]

theorem deliver {r : Except DecodeFailure DecodedEvent}
    (hfits : ∀ x pc epc, r = .ok (.tagDetected x pc epc) → epc.length ≤ s'.config.bufCap) :
    SameAnswer s u (s'.deliver r) (u'.deliver r) := by
  match r with
  | .ok (.tagDetected x pc epc) =>
    have hl := hfits x pc epc rfl
    rw [State.deliver_tagDetected _ _ _ hl, State.deliver_tagDetected _ _ _ (by rwa [h.config])]
    exact (((h.setOutput hl).setTag x pc).setRes _).next
  | .ok (.errorReported code) => exact ((h.setErrcode code).setRes _).next
  | .ok .unrecognized => exact (h.setRes _).next
  | .error f => exact h.fail _

end SameResults

/-- The EPC of every tag the path gives is no longer than the sequence. -/
def DecodePath.TagsFit (path : DecodePath) : Prop :=
  ∀ b h7 x pc epc, path b h7 = .ok (.tagDetected x pc epc) → epc.length ≤ b.length

theorem tagPath_tagsFit (cfg : Config) : DecodePath.TagsFit (tagPath cfg) := by
  intro b h7 x pc epc h
  obtain ⟨_, _, _, he, hl⟩ := tagPath_ok h
  cases he
  exact hl

theorem shapePath_tagsFit (cfg : Config) : DecodePath.TagsFit (shapePath cfg) := by
  intro b h7 x pc epc h
  rcases shapePath_ok h with h | h | h
  · exact tagPath_tagsFit cfg b h7 x pc epc h
  · cases h
  · cases h

/-- The payload of a frame is part of the sequence it starts. -/
theorem frameAt_payload_length_le {b : List Byte} {f : Frame} (h : frameAt b = some f) :
    f.payload.length ≤ b.length := by
  unfold frameAt at h
  split at h
  · split at h
    · cases h
      rw [length_slice]
      omega
    · cases h
  · cases h

theorem pext_length_le {b p : List Byte} (h : pext b = .ok p) : p.length ≤ b.length := by
  unfold pext at h
  split at h
  · cases h
  · split at h
    · cases h
    · split at h
      · cases h
      · next f hf =>
        cases h
        exact frameAt_payload_length_le hf

/-! ### Every instruction answers the same from two states alike in what it may read -/

section

variable {s u : State} (h : SameResults s u s u) {b : List Byte} (hb : s.input = .ok b)
include h hb

theorem SameResults.decodeBy {path : DecodePath} (hpath : path.TagsFit) :
    SameAnswer s u (s.decodeBy path) (u.decodeBy path) := by
  refine h.withInput hb ?_
  rw [h.config, State.ce, State.ce, h.cfg]
  refine h.deliver fun x pc epc hr => ?_
  obtain ⟨h7, hp⟩ := afterFloor_eq_ok (gate_eq_ok hr)
  exact (hpath b h7 x pc epc hp).trans (State.input_le_cap hb)

omit hb in
theorem SameResults.deliverFrame (t c : Byte) {p : List Byte} (hfits : p.length + 7 ≤ s.config.bufCap) :
    SameAnswer s u (s.deliverFrame t c p) (u.deliverFrame t c p) := by
  simp only [State.deliverFrame, h.config]
  have hl : (enc s.config t c p).length ≤ s.config.bufCap := by simpa using hfits
  exact h.withOutput hl ((h.setOutput hl).setCsr _).succeed

omit hb in
theorem SameResults.execClr : SameAnswer s u (execClr s) (execClr u) := by
  rw [Machine.execClr, Machine.execClr, h.flg]
  exact (h.setIlen_zero.setFlg _).next

theorem SameResults.execPush (x : Byte) : SameAnswer s u (execPush x s) (execPush x u) := by
  simp only [Machine.execPush, h.ilen, h.config, h.flg]
  split
  · exact (h.pushInput x hb ‹_›).next
  · exact (h.setFlg _).next

theorem SameResults.execEnc (t c : Byte) : SameAnswer s u (execEnc t c s) (execEnc t c u) := by
  have hl := State.input_length hb
  simp only [Machine.execEnc, h.ilen, h.config]
  split
  · exact h.fail _
  · exact h.withInput hb (h.deliverFrame t c (by omega))

theorem SameResults.execCsum : SameAnswer s u (execCsum s) (execCsum u) := by
  refine h.withInput hb ?_
  rw [h.config]
  exact (h.setCsr _).succeed

theorem SameResults.execVerify : SameAnswer s u (execVerify s) (execVerify u) := by
  refine h.withInput hb ?_
  rw [h.config]
  split
  · exact (h.setCsrIf _).succeed
  · exact (h.setCsrIf _).fail _

theorem SameResults.execWfchk : SameAnswer s u (execWfchk s) (execWfchk u) := by
  refine h.withInput hb ?_
  rw [h.config]
  exact ((h.setWf _).setCsrIf _).succeed

theorem SameResults.execPext : SameAnswer s u (execPext s) (execPext u) := by
  refine h.withInput hb ?_
  split
  · next p hp =>
    have hl := (pext_length_le hp).trans (State.input_le_cap hb)
    exact h.withOutput hl (h.setOutput hl).succeed
  · exact h.fail _

theorem SameResults.execDec : SameAnswer s u (execDec s) (execDec u) := by
  rw [Machine.execDec, Machine.execDec, h.config]
  exact h.decodeBy hb (shapePath_tagsFit _)

theorem SameResults.execFrameNtfTag : SameAnswer s u (execFrameNtfTag s) (execFrameNtfTag u) := by
  rw [Machine.execFrameNtfTag, Machine.execFrameNtfTag, h.config]
  exact h.decodeBy hb (tagPath_tagsFit _)

theorem SameResults.exec (hcap : 7 ≤ s.config.bufCap) (i : Instr) : SameAnswer s u (exec i s) (exec i u) := by
  cases i with
  | clr => exact h.execClr
  | push x => exact h.execPush hb x
  | enc t c => exact h.execEnc hb t c
  | encInv => exact h.deliverFrame _ _ hcap
  | csum => exact h.execCsum hb
  | verify => exact h.execVerify hb
  | wfchk => exact h.execWfchk hb
  | pext => exact h.execPext hb
  | dec => exact h.execDec hb
  | setcfg v => exact (h.setCfg _).next
  | reserved0 | reservedB | reservedC | reservedD | reservedE | reservedF => exact h.next
  | frameNtfTag => exact h.execFrameNtfTag hb
  | frameRspErr | frameRspOther | frameCmdInv | frameOther | frameNoHeader =>
    exact h.decodeBy hb fun _ _ _ _ _ hp => by cases hp

end

/-- Settles O46: the states are alike in what an operation may read, and every instruction keeps that. -/
theorem noOperationReadsAnUnspecifiedValue : Obligations.NoOperationReadsAnUnspecifiedValue := by
  intro s u i hs hu hinput hres hflg hcfg hconfig
  obtain ⟨b, hb⟩ := State.exists_input hs
  have hilen : u.ilen = s.ilen := (State.input_length (hinput.trans hb)).symm.trans (State.input_length hb)
  have hsame : SameResults s u s u :=
    { config := hconfig, res := hres, flg := hflg, cfg := hcfg, ilen := hilen, input := hinput
      tag := .inr ⟨rfl, rfl, rfl, rfl⟩, errcode := .inr ⟨rfl, rfl⟩, csr := .inr ⟨rfl, rfl⟩, wf := .inr ⟨rfl, rfl⟩
      output := .inr ⟨rfl, rfl, rfl, rfl⟩ }
  obtain ⟨s', u', he, he', h⟩ := hsame.exec hb hs.1 i
  exact ⟨s', u', he, he', h.res, h.flg, h.cfg, h.ilen, h.input, h.tag, h.errcode, h.csr, h.wf, h.output⟩

end Sys2Proof.Machine

/-! # Proofs of the statements about the buffers and the order of operations (20_memory.md) -/

namespace Sys2Proof.Machine

variable {s t : State}

/-- Settles O52: by the laws of a buffer. -/
theorem bufferReadsAfterWrites : Obligations.BufferReadsAfterWrites := by
  intro m n i j x hm hn
  exact ⟨Memory.read_write_same m i x, Memory.read_write_other m x, Memory.wf_write m i x hm, Memory.ext_read m n hm hn⟩

/-- Settles O5: the command at the head of the script and the empty script are two cases of a step. -/
theorem stepRunsThePresentedCommand : Obligations.StepRunsThePresentedCommand := by
  refine ⟨?_, fun s => step_idle⟩
  rintro s i w es rfl hscript
  exact step_command hscript

/-! ## A second DEC (20_memory.md rule R43, 42_decoder.md rule R94) -/

/-- Both sides read alike everywhere, and the canonical form makes that equality. -/
theorem Memory.writeSeq_writeSeq_same {m : Memory} (hm : Memory.wf m = true) (i : Nat) (xs : List Byte) :
    Memory.writeSeq (Memory.writeSeq m i xs) i xs = Memory.writeSeq m i xs := by
  have hw := Memory.wf_writeSeq m i xs hm
  refine Memory.ext_read _ _ (Memory.wf_writeSeq _ i xs hw) hw fun j => ?_
  by_cases h : i ≤ j ∧ j < i + xs.length
  · simp only [Memory.read_writeSeq, dif_pos h]
  · rw [Memory.read_writeSeq, dif_neg h]

theorem State.setOutput_setOutput_same (hs : Memory.wf s.obuf = true) (bs : List Byte) :
    (s.setOutput bs).setOutput bs = s.setOutput bs := by
  simp only [State.setOutput, Memory.writeSeq_writeSeq_same hs]

/-- Delivery leaves everything the decoder reads: it writes result registers and OBUF only (R92). -/
theorem State.deliver_keeps {r : Except DecodeFailure DecodedEvent} (h : s.deliver r = .next t) :
    t.input = s.input ∧ t.ce = s.ce ∧ t.config = s.config := by
  rcases State.deliver_next h with ⟨x, pc, epc, -, -, rfl⟩ | ⟨code, -, rfl⟩ | ⟨-, rfl⟩ | ⟨f, -, rfl⟩ <;>
    exact ⟨rfl, rfl, rfl⟩

/-- What was delivered once is there already when it is delivered again. -/
theorem State.deliver_again {r : Except DecodeFailure DecodedEvent} (hs : Memory.wf s.obuf = true)
    (h : s.deliver r = .next t) : t.deliver r = .next t := by
  rcases State.deliver_next h with ⟨x, pc, epc, rfl, hl, rfl⟩ | ⟨code, rfl, rfl⟩ | ⟨rfl, rfl⟩ | ⟨f, rfl, rfl⟩
  · rw [State.deliver_tagDetected _ x pc (by exact hl)]
    change Host.Outcome.next ((((s.setOutput epc).setOutput epc).setTag x pc).setRes 0xA0#8) = _
    rw [State.setOutput_setOutput_same hs]
  · exact State.deliver_errorReported _ code
  · exact State.deliver_unrecognized _
  · rfl

/-- The second decode finds the same input, CE and parameters, so it delivers the same result. -/
theorem State.decodeBy_again {path : DecodePath} (hs : Memory.wf s.obuf = true) (h : s.decodeBy path = .next t) :
    t.decodeBy path = .next t := by
  obtain ⟨b, hb, hd⟩ := State.decodeBy_next h
  obtain ⟨hinput, hce, hconfig⟩ := State.deliver_keeps hd
  rw [State.decodeBy, State.withInput_of_input (hinput.trans hb), hce, hconfig]
  exact State.deliver_again hs hd

/-- Settles O40: DEC takes the path the parameters give, which the first DEC keeps. -/
theorem secondDecGivesTheSameState : Obligations.SecondDecGivesTheSameState := by
  intro s t hs h
  obtain ⟨-, -, -, -, hobuf, -⟩ := hs
  obtain ⟨hconfig, -, -⟩ := (exec_effect h).parameters_script_kept
  change t.decodeBy (shapePath t.config) = .next t
  rw [hconfig]
  exact State.decodeBy_again hobuf h

end Sys2Proof.Machine

/-! # Proofs of the statements about encodings (30_encoding.md) -/

/-! ## Instructions and their encodings -/

namespace Sys2Proof

/-- Settles O1: one lemma a row of the opcode table, those of the family RoundTrip. -/
theorem encodedInstructionsDecodeToThemselves : Obligations.EncodedInstructionsDecodeToThemselves := by
  intro i
  cases i with
  | clr => exact Laws.RoundTrip.clr
  | push x => exact Laws.RoundTrip.push x
  | enc t c => exact Laws.RoundTrip.enc t c
  | encInv => exact Laws.RoundTrip.encInv
  | csum => exact Laws.RoundTrip.csum
  | verify => exact Laws.RoundTrip.verify
  | wfchk => exact Laws.RoundTrip.wfchk
  | pext => exact Laws.RoundTrip.pext
  | dec => exact Laws.RoundTrip.dec
  | setcfg v => exact Laws.RoundTrip.setcfg v
  | reserved0 => exact Laws.RoundTrip.reserved0
  | reservedB => exact Laws.RoundTrip.reservedB
  | reservedC => exact Laws.RoundTrip.reservedC
  | reservedD => exact Laws.RoundTrip.reservedD
  | reservedE => exact Laws.RoundTrip.reservedE
  | reservedF => exact Laws.RoundTrip.reservedF
  | frameRspErr => exact Laws.RoundTrip.frameRspErr
  | frameRspOther c => exact Laws.RoundTrip.frameRspOther c
  | frameNtfTag => exact Laws.RoundTrip.frameNtfTag
  | frameCmdInv => exact Laws.RoundTrip.frameCmdInv
  | frameOther t c => exact Laws.RoundTrip.frameOther t c
  | frameNoHeader h t c => exact Laws.RoundTrip.frameNoHeader h t c

/-- A command word selects an operation, never a frame row, and every operation is well-formed (R57). -/
theorem wellFormed_decodeCommand (w : CommandWord) : (decodeCommand w).wellFormed = true := by
  unfold decodeCommand
  split <;> rfl

/-- The row three bytes select: its own condition on them, and what the rows above it leave (R52). -/
theorem frameRow_cases (h t c : Byte) :
    (h ≠ header ∧ frameRow h t c = .frameNoHeader h t c) ∨
    (h = header ∧
      ((t = typeResponse ∧ c = cmdError ∧ frameRow h t c = .frameRspErr) ∨
       (t = typeResponse ∧ c ≠ cmdError ∧ frameRow h t c = .frameRspOther c) ∨
       (t = typeNotification ∧ c = cmdInventory ∧ frameRow h t c = .frameNtfTag) ∨
       (t = typeCommand ∧ c = cmdInventory ∧ frameRow h t c = .frameCmdInv) ∨
       (t ≠ typeResponse ∧ ¬ (t = typeNotification ∧ c = cmdInventory) ∧ ¬ (t = typeCommand ∧ c = cmdInventory) ∧
        frameRow h t c = .frameOther t c))) := by
  unfold frameRow
  split_ifs <;> simp_all

/-- Settles O2: the bytes of a row meet the row's condition, and its encoding writes them out again. -/
theorem decodedInstructionsAreWellFormed : Obligations.DecodedInstructionsAreWellFormed := by
  refine ⟨wellFormed_decodeCommand, fun h t c => ?_⟩
  rcases frameRow_cases h t c with ⟨hh, hr⟩ | ⟨rfl, ⟨rfl, rfl, hr⟩ | ⟨rfl, hc, hr⟩ | ⟨rfl, rfl, hr⟩ | ⟨rfl, rfl, hr⟩ |
    ⟨ht, htag, hinv, hr⟩⟩ <;> rw [hr]
  · exact ⟨bne_iff_ne.mpr hh, rfl⟩
  · exact ⟨rfl, rfl⟩
  · exact ⟨bne_iff_ne.mpr hc, rfl⟩
  · exact ⟨rfl, rfl⟩
  · exact ⟨rfl, rfl⟩
  · refine ⟨?_, rfl⟩
    simp only [Instr.wellFormed, Bool.and_eq_true, bne_iff_ne, Bool.not_eq_true', Bool.and_eq_false_iff,
      beq_eq_false_iff_ne]
    exact ⟨⟨ht, not_and_or.mp htag⟩, not_and_or.mp hinv⟩

/-- Settles O3: bits 19:16 pick the line of the table in `decodeCommand`. -/
theorem operationCodesSelectTheOperations : Obligations.OperationCodesSelectTheOperations := by
  intro w
  and_intros <;> intro hop <;> simp only [decodeCommand, opField, hop] <;> rfl

/-- Settles O4: closed facts about fixed words. -/
theorem wordsOfTheSpecDecode : Obligations.WordsOfTheSpecDecode := by
  unfold Obligations.WordsOfTheSpecDecode
  decide

end Sys2Proof

/-! ## DEC and the rows of the shape map -/

namespace Sys2Proof.Machine

/-- The path a frame row performs is the one the shape map selects for a sequence that starts with its bytes (R52). -/
theorem exec_frameRow_eq_decodeBy (s : State) (h t c : Byte) :
    ∃ path : DecodePath, exec (frameRow h t c) s = s.decodeBy path ∧
      ∀ b h7, StartsWith b h t c → shapePath s.config b h7 = path b h7 := by
  rcases frameRow_cases h t c with ⟨hh, hr⟩ | ⟨rfl, ⟨rfl, rfl, hr⟩ | ⟨rfl, hc, hr⟩ | ⟨rfl, rfl, hr⟩ | ⟨rfl, rfl, hr⟩ |
    ⟨ht, htag, -, hr⟩⟩ <;> rw [hr]
  · exact ⟨badHeaderPath, rfl, fun b h7 hs => (shapePath_eq h7 hs).trans (if_pos hh)⟩
  · refine ⟨errorReportPath, rfl, fun b h7 hs => (shapePath_eq h7 hs).trans ?_⟩
    simp [errorReportPath, byteAt_eq_getElem (show 5 < b.length by omega)]
  · refine ⟨otherResponsePath, rfl, fun b h7 hs => (shapePath_eq h7 hs).trans ?_⟩
    simp [otherResponsePath, hc]
  · exact ⟨tagPath s.config, rfl, fun b h7 hs => (shapePath_eq h7 hs).trans (by simp [typeNotification])⟩
  · exact ⟨unknownShapePath, rfl, fun b h7 hs => (shapePath_eq h7 hs).trans (by simp [typeCommand, unknownShapePath])⟩
  · refine ⟨unknownShapePath, rfl, fun b h7 hs => (shapePath_eq h7 hs).trans ?_⟩
    rw [if_neg (by simp), if_neg ht, if_neg htag, unknownShapePath]

/-- Settles O6: past the length floor both sides deliver what one path gives for the input. -/
theorem decRunsTheRowOfTheShapeMap : Obligations.DecRunsTheRowOfTheShapeMap := by
  intro s b hb h7
  obtain ⟨path, hrow, hpath⟩ := exec_frameRow_eq_decodeBy s (byteAt b 0) (byteAt b 1) (byteAt b 2)
  calc exec .dec s = s.decodeBy (shapePath s.config) := rfl
    _ = s.deliver (gate s.config s.ce b (shapePath s.config b h7)) := State.decodeBy_of_seven hb h7 _
    _ = s.deliver (gate s.config s.ce b (path b h7)) := by rw [hpath b h7 (startsWith_self h7)]
    _ = s.decodeBy path := (State.decodeBy_of_seven hb h7 path).symm
    _ = exec (frameRow (byteAt b 0) (byteAt b 1) (byteAt b 2)) s := hrow.symm

/-! ## LOAD (30_encoding.md rule R61) -/

/-- The CLR a LOAD starts with, as the next step performs it. -/
theorem step_clr {s : State} {es : List HostEvent} (h : s.script = .command (commandWord 0x1 0 0) :: es) :
    step s = .next (((s.setScript es).setIlen 0).setFlg (flgClearOvf s.flg)) := by
  rw [step_command h]
  simp only [decodeCommand, opField_commandWord]
  rfl

/-- Settles O14: CLR leaves the empty input, and the PUSHes append to it. -/
theorem loadedBytesAreTheInput : Obligations.LoadedBytesAreTheInput := by
  intro s bs es hfits hscript
  obtain ⟨t, hrun, hinput, ht⟩ :=
    core_run_pushs bs (((s.setScript (pushsOps bs ++ es)).setIlen 0).setFlg (flgClearOvf s.flg)) [] es rfl rfl
      (by simpa using hfits)
  have hflg : t.flg = flgClearOvf s.flg := by rw [ht]; rfl
  refine ⟨t, (core_run_of_next (step_clr hscript) _).trans hrun, hinput, ?_, ?_⟩
  · rw [hflg, getLsbD_flgClearOvf]
    simp
  · rw [hflg, ht]
    simp [State.setScript, State.setIlen, State.setFlg]

/-! ## Frame records and frame bytes (30_encoding.md rules R45, R49, 20_memory.md rule R35) -/

/-- A frame is read only from a sequence that holds all of it, and then it is the one at index 0. -/
theorem frameAt_eq_some {b : List Byte} {f : Frame} (h : frameAt b = some f) : Complete b ∧ f = frameOf b := by
  by_cases hc : Complete b
  · rw [frameAt_of_complete hc] at h
    exact ⟨hc, (Option.some.inj h).symm⟩
  · rw [frameAt_of_not_complete hc] at h
    cases h

theorem frameOf_payloadLength (b : List Byte) : (frameOf b).payloadLength.toNat = lenField b := by
  simpa [frameOf] using lenField_lt b

/-- The bytes below `n + 1` are those below `n` and byte `n`. -/
theorem take_succ_byteAt {b : List Byte} {n : Nat} (h : n < b.length) : b.take (n + 1) = b.take n ++ [byteAt b n] := by
  rw [byteAt_eq_getElem h, List.take_append_getElem h]

/-- The frame at index 0, written out, is the sequence up to its terminator. -/
theorem toBytes_frameOf {b : List Byte} (h : Complete b) : (frameOf b).toBytes = b.take (lenField b + 7) := by
  obtain ⟨h7, hlen⟩ := h
  have hhead : [byteAt b 0] ++ (b.drop 1).take (4 + lenField b) = b.take (5 + lenField b) := by
    match b, h7 with
    | x :: r, _ => simp [byteAt, show 5 + lenField (x :: r) = 4 + lenField (x :: r) + 1 by omega]
  calc (frameOf b).toBytes
      = [byteAt b 0] ++ (b.drop 1).take (4 + lenField b) ++ [byteAt b (5 + lenField b), byteAt b (6 + lenField b)] := by
        rw [Frame.toBytes, frameOf_span ⟨h7, hlen⟩]; rfl
    _ = b.take (5 + lenField b) ++ [byteAt b (5 + lenField b)] ++ [byteAt b (6 + lenField b)] := by
        rw [hhead]; simp
    _ = b.take (lenField b + 7) := by
        rw [← take_succ_byteAt (by omega), show 5 + lenField b + 1 = 6 + lenField b by omega,
          ← take_succ_byteAt (by omega), show 6 + lenField b + 1 = lenField b + 7 by omega]

/-- The bytes of a frame, the header of five bytes first (R49). -/
theorem Frame.toBytes_eq (f : Frame) :
    f.toBytes = [f.header, f.frameType, f.command, hi8 f.payloadLength.toNat, lo8 f.payloadLength.toNat] ++
      (f.payload ++ [f.checksum, f.terminator]) := by
  simp [Frame.toBytes, Frame.span]

theorem lenField_toBytes (f : Frame) : lenField f.toBytes = f.payloadLength.toNat := by
  have := f.payloadLength.isLt
  simp [Frame.toBytes_eq, lenField, byteAt, hi8, lo8]
  omega

theorem complete_toBytes {f : Frame} (hf : f.payload.length = f.payloadLength.toNat) : Complete f.toBytes := by
  rw [Complete, lenField_toBytes]
  simp [Frame.toBytes_eq]
  omega

/-- Every field of a frame stands where the accessor looks for it. -/
theorem frameOf_toBytes {f : Frame} (hf : f.payload.length = f.payloadLength.toNat) : frameOf f.toBytes = f := by
  obtain ⟨h, t, c, pl, p, k, e⟩ := f
  have hpl : BitVec.ofNat 16 p.length = pl := by simp [show p.length = pl.toNat from hf]
  simp only [frameOf, checksumByte, lenField_toBytes, ← hf]
  simp [Frame.toBytes_eq, byteAt, hpl, Nat.add_comm _ p.length]

/-- Settles O21: both directions go through the frame at index 0. -/
theorem frameBytesRoundTrip : Obligations.FrameBytesRoundTrip := by
  constructor
  · intro b f h
    obtain ⟨hc, rfl⟩ := frameAt_eq_some h
    have hlen := hc.2
    rw [frameOf_payloadLength]
    refine ⟨toBytes_frameOf hc, ?_⟩
    simp [frameOf]
    omega
  · intro f x hf
    exact frameAt_append (by rw [frameAt_of_complete (complete_toBytes hf), frameOf_toBytes hf])

end Sys2Proof.Machine

/-! # Proofs of the statements about the encoder (40_encoder.md) -/

/-! ## ENC and ENC.INV -/

namespace Sys2Proof.Machine

/-- The bytes after the header are the span, whatever follows the frame (30_encoding.md rule R51). -/
theorem span_of_enc (cfg : Config) (t c : Byte) (p x : List Byte) :
    ((enc cfg t c p ++ x).drop 1).take (4 + p.length) = span t c p := by
  simp [enc, span, Nat.add_comm 4]

/-- The checksum byte stands right after the payload (20_memory.md rule R35). -/
theorem byteAt_enc_checksum (cfg : Config) (t c : Byte) (p x : List Byte) :
    byteAt (enc cfg t c p ++ x) (5 + p.length) = encChecksum cfg t c p := by
  simp [enc, span, byteAt, Nat.add_comm 5]

/-- A built frame that fits OBUF is delivered (R66, R67). -/
theorem State.deliverFrame_of_fits {s : State} {p : List Byte} (t c : Byte) (hm : s.config.csumMinSpan = 4)
    (hp : p.length ≤ 65535) (hfits : p.length + 7 ≤ s.config.bufCap) :
    ∃ u, s.deliverFrame t c p = .next u ∧ u.output = .ok (encodedFrame t c p) ∧
      u = { s with obuf := Memory.writeSeq s.obuf 0 (encodedFrame t c p), olen := p.length + 7,
                   csr := byteAt (encodedFrame t c p) (5 + p.length), res := 0x80#8 } := by
  have henc := enc_eq_encodedFrame hm t c p hp
  have hcsr : byteAt (encodedFrame t c p) (5 + p.length) = encChecksum s.config t c p := by
    simpa [henc] using byteAt_enc_checksum s.config t c p []
  refine ⟨((s.setOutput (encodedFrame t c p)).setCsr (encChecksum s.config t c p)).setRes 0x80#8, ?_, ?_, ?_⟩
  · rw [State.deliverFrame, State.withOutput_of_le (by simpa using hfits), henc]
    rfl
  · exact State.setOutput_output s _ (by simpa using hfits)
  · simp [State.setOutput, State.setCsr, State.setRes, hcsr]

theorem execEnc_operandRange {s : State} (t c : Byte) (h : 65535 < s.ilen ∨ s.config.bufCap < s.ilen + 7) :
    execEnc t c s = .next { s with res := 0x07#8 } := if_pos h

theorem execEnc_of_fits {s : State} {p : List Byte} (t c : Byte) (hinput : s.input = .ok p) (hp : p.length ≤ 65535)
    (hfits : p.length + 7 ≤ s.config.bufCap) : execEnc t c s = s.deliverFrame t c p := by
  have hlen := State.input_length hinput
  rw [execEnc, if_neg (by rw [plMax]; omega), State.withInput_of_input hinput]

/-- Settles O16: the guard of ENC is the statement's condition, and what passes it is delivered. -/
theorem encBuildsTheFrame : Obligations.EncBuildsTheFrame := by
  intro s t c p hm hinput
  refine ⟨Laws.RoundTrip.enc t c rfl, ?_⟩
  split
  · next hrange => exact execEnc_operandRange t c (State.input_length hinput ▸ hrange)
  · next hrange =>
    obtain ⟨u, hu, hout, rfl⟩ := State.deliverFrame_of_fits t c hm (p := p) (by omega) (by omega)
    exact ⟨_, (execEnc_of_fits t c hinput (by omega) (by omega)).trans hu, hout, rfl⟩

/-- Settles O17: ENC.INV delivers the frame of the empty payload. -/
theorem encInvDeliversTheInventoryCommand : Obligations.EncInvDeliversTheInventoryCommand := by
  refine ⟨by decide, fun s hs => ?_⟩
  obtain ⟨hm, -, hcap⟩ := hs
  obtain ⟨u, hu, hout, rfl⟩ := State.deliverFrame_of_fits 0x00 0x22 hm (p := []) (by simp) hcap
  exact ⟨_, hu, hout, rfl⟩

/-- Settles O18: after CLR the input is empty, so ENC delivers the frame that ENC.INV delivers. -/
theorem encInvEqualsClrThenEnc : Obligations.EncInvEqualsClrThenEnc := by
  intro s hs
  obtain ⟨hm, -, hcap⟩ := hs
  obtain ⟨u, hu, -, rfl⟩ := State.deliverFrame_of_fits (s := (s.setIlen 0).setFlg (flgClearOvf s.flg)) 0x00 0x22 hm
    (p := []) (by simp) hcap
  obtain ⟨v, hv, -, rfl⟩ := State.deliverFrame_of_fits (s := s) 0x00 0x22 hm (p := []) (by simp) hcap
  exact ⟨(s.setIlen 0).setFlg (flgClearOvf s.flg), _, _, rfl,
    (execEnc_of_fits 0x00 0x22 rfl (by simp) (by exact hcap)).trans hu, hv, rfl, rfl, rfl, rfl⟩

/-! ## What the readers of a frame find in a built frame (R68) -/

section

variable {cfg : Config} (hm : cfg.csumMinSpan = 4) (t c : Byte) {p : List Byte} (hp : p.length ≤ 65535) (x : List Byte)
include hm hp

theorem lenField_enc : lenField (enc cfg t c p ++ x) = p.length := by
  rw [enc_eq_encodedFrame hm t c p hp, lenField_encodedFrame t c p x hp]

theorem complete_enc : Complete (enc cfg t c p ++ x) := by
  rw [enc_eq_encodedFrame hm t c p hp]
  exact complete_encodedFrame t c p x hp

theorem enc_bytes :
    byteAt (enc cfg t c p ++ x) 0 = 0xBB#8 ∧ byteAt (enc cfg t c p ++ x) 1 = t ∧ byteAt (enc cfg t c p ++ x) 2 = c ∧
    ((enc cfg t c p ++ x).drop 5).take p.length = p ∧ byteAt (enc cfg t c p ++ x) (6 + p.length) = 0x7E#8 := by
  rw [enc_eq_encodedFrame hm t c p hp]
  exact encodedFrame_bytes t c p x

theorem payload_of_enc : ((enc cfg t c p ++ x).drop 5).take p.length = p := by
  obtain ⟨-, -, -, hpayload, -⟩ := enc_bytes hm t c hp x
  exact hpayload

/-- The two sums over the span agree: the one the encoder wrote and the one a receiver computes. -/
theorem checksumByte_enc : checksumByte (enc cfg t c p ++ x) = spanSum (enc cfg t c p ++ x) := by
  rw [checksumByte, spanSum, lenField_enc hm t c hp, byteAt_enc_checksum, span_of_enc]
  exact csum_eq_sum256 (by simp [span]; omega)

theorem verify_enc : ∃ k, verify cfg (enc cfg t c p ++ x) = .ok k :=
  ⟨_, (verify_of_complete hm (complete_enc hm t c hp x)).trans (if_pos (checksumByte_enc hm t c hp x))⟩

theorem wfClauses_enc : wfClauses cfg (enc cfg t c p ++ x) = ⟨true, true, true, true⟩ := by
  have hc := complete_enc hm t c hp x
  have hk := checksumByte_enc hm t c hp x
  have hl := lenField_enc hm t c hp x
  obtain ⟨h0, -, -, -, h6⟩ := enc_bytes hm t c hp x
  have hhead := (head?_eq_byteAt (show 0 < (enc cfg t c p ++ x).length by simp)).trans (congrArg some h0)
  rw [wfClauses_eq hm, WfClauses.mk.injEq]
  exact ⟨decide_eq_true hhead, decide_eq_true hc, decide_eq_true ⟨hc, hk⟩, decide_eq_true ⟨hc, by rw [hl, h6]⟩⟩

theorem pext_enc : pext (enc cfg t c p ++ x) = .ok p := by
  obtain ⟨h0, -, -, hpayload, -⟩ := enc_bytes hm t c hp x
  rw [pext_of_complete h0 (complete_enc hm t c hp x), lenField_enc hm t c hp x, hpayload]

/-- The checksum gate lets every result for a built frame through (R91). -/
theorem dec_enc (ce : Bool) (h7 : 7 ≤ (enc cfg t c p ++ x).length) :
    dec cfg ce (enc cfg t c p ++ x) = shapePath cfg (enc cfg t c p ++ x) h7 := by
  obtain ⟨k, hk⟩ := verify_enc hm t c hp x
  rw [dec, decRef, afterFloor_of_seven h7]
  cases shapePath cfg (enc cfg t c p ++ x) h7 with
  | error f => rfl
  | ok e => cases ce <;> simp [gate, hk]

/-- A built tag notification goes down the tag path (30_encoding.md rule R52). -/
theorem dec_enc_eq_tagPath (ce : Bool) (h7 : 7 ≤ (enc cfg 0x02 0x22 p ++ x).length) :
    dec cfg ce (enc cfg 0x02 0x22 p ++ x) = tagPath cfg (enc cfg 0x02 0x22 p ++ x) h7 := by
  rw [dec_enc hm _ _ hp x ce h7, shapePath_eq (h := 0xBB) (t := 0x02) (c := 0x22) h7 rfl]
  simp

/-- The inventory command is a shape the decoder does not know (R90). -/
theorem dec_enc_inventory (ce : Bool) : dec cfg ce (enc cfg 0x00 0x22 p ++ x) = .error .unknownShape := by
  have h7 := (complete_enc hm 0x00 0x22 hp x).1
  rw [dec_enc hm _ _ hp x ce h7, shapePath_eq (h := 0xBB) (t := 0x00) (c := 0x22) h7 rfl]
  simp

theorem byteAt_enc_payload {i : Nat} (hi : i < p.length) : byteAt (enc cfg t c p ++ x) (5 + i) = byteAt p i := by
  conv_rhs => rw [← payload_of_enc hm t c hp x]
  simp [byteAt, hi]

/-- The tag path reads its fields out of the payload (R89). -/
theorem dec_enc_tag (ht : cfg.tagMinLen = 11) (ce : Bool) (h3 : 3 ≤ p.length) (hx : 4 ≤ p.length + x.length) :
    dec cfg ce (enc cfg 0x02 0x22 p ++ x) =
      .ok (.tagDetected (byteAt p 0) (byteAt p 1 ++ byteAt p 2) (p.drop 3)) := by
  have hc := complete_enc hm 0x02 0x22 hp x
  have hl := lenField_enc hm 0x02 0x22 hp x
  have hbyte := @byteAt_enc_payload cfg hm 0x02 0x22 p hp x
  have hepc : ((enc cfg 0x02 0x22 p ++ x).drop 8).take (p.length - 3) = p.drop 3 := by
    conv_rhs => rw [← payload_of_enc hm 0x02 0x22 hp x]
    rw [List.drop_take, List.drop_drop]
  rw [dec_enc_eq_tagPath hm hp x ce hc.1, tagPath_event hc.1 (by simp [ht]; omega) hc (by omega), hl, hepc,
    hbyte (i := 0) (by omega), hbyte (i := 1) (by omega), hbyte (i := 2) (by omega)]

/-- A tag notification shorter than `TAG_MIN_LEN` is incomplete (R89). -/
theorem dec_enc_tag_incomplete (ht : cfg.tagMinLen = 11) (ce : Bool) (hx : p.length + x.length < 4) :
    dec cfg ce (enc cfg 0x02 0x22 p ++ x) = .error .incompletePayload := by
  have h7 := (complete_enc hm 0x02 0x22 hp x).1
  rw [dec_enc_eq_tagPath hm hp x ce h7]
  exact tagPath_incomplete h7 (.inl (by simp [ht]; omega))

end

/-- The tag's fields are all of the payload. -/
theorem head_three_append_drop {p : List Byte} (h : 3 ≤ p.length) :
    [byteAt p 0, byteAt p 1, byteAt p 2] ++ p.drop 3 = p := by
  match p, h with
  | _ :: _ :: _ :: _, _ => rfl

/-- Settles O19: clauses (a) to (g) of R68 in their order. -/
theorem encodedFramesHaveTheirProperties : Obligations.EncodedFramesHaveTheirProperties := by
  intro cfg t c p ce hm ht hp
  have hbytes := enc_bytes hm t c hp []
  have hlen := lenField_enc hm t c hp []
  have hsum := byteAt_enc_checksum cfg t c p []
  have hspan := span_of_enc cfg t c p []
  have hwf := wfClauses_enc hm t c hp []
  have hverify := verify_enc hm t c hp []
  have hpext := pext_enc hm t c hp []
  have hinv := dec_enc_inventory hm (p := []) (by simp) [] ce
  rw [List.append_nil] at hbytes hlen hsum hspan hwf hverify hpext hinv
  obtain ⟨h0, h1, h2, hpayload, h6⟩ := hbytes
  have hshort (h : p.length < 4) : dec cfg ce (enc cfg 0x02 0x22 p) = .error .incompletePayload := by
    simpa using dec_enc_tag_incomplete hm hp [] ht ce (by simpa using h)
  refine ⟨length_enc cfg t c p, ⟨h0, h1, h2, hlen, hpayload, h6⟩, by rw [hsum, hspan, encChecksum],
    ⟨hwf, by rw [hwf]; rfl, hverify⟩, hpext, fun h4 => ⟨?_, head_three_append_drop (by omega)⟩,
    fun h3 => ⟨hshort (by omega), fun y => ?_⟩, fun h3 => hshort (by omega), hinv⟩
  · simpa using dec_enc_tag hm hp [] ht ce (by omega) (by simpa using h4)
  · rw [dec_enc_tag hm hp [y] ht ce (by omega) (by simp; omega), List.drop_of_length_le (by omega)]

end Sys2Proof.Machine

/-! # Proofs of the statements about the checksum (41_checksum.md) -/

/-! ## CSUM, VERIFY and WFCHK -/

namespace Sys2Proof.Machine

/-- The checksum of a sequence at the spec's threshold (R73). -/
theorem csum_eq_ite {cfg : Config} (hm : cfg.csumMinSpan = 4) (b : List Byte) :
    csum cfg b = if b.length < 4 then 0x00#8 else sum256 b := by
  rw [← hm]
  split
  · next h => exact if_pos h
  · next h => exact csum_eq_sum256 (Nat.not_lt.mp h)

/-- Settles O22: the span of CSUM is the whole input. -/
theorem csumSumsTheInput : Obligations.CsumSumsTheInput := by
  intro s b hm hb
  refine ⟨by decide, ?_⟩
  calc exec .csum s = .next ((s.setCsr (csum s.config b)).setRes resOk) := State.withInput_of_input hb _
    _ = .next { s with csr := if b.length < 4 then 0x00#8 else sum256 b, res := 0x80#8 } := by
      rw [csum_eq_ite hm]; rfl

/-- Without the whole frame there is no span, and VERIFY is a failure that leaves CSR alone (R77). -/
theorem execVerify_of_not_complete {s : State} {b : List Byte} {f : DecodeFailure} (hb : s.input = .ok b)
    (hc : ¬ Complete b) (hf : verify s.config b = .error f) : execVerify s = s.fail (.decode f) := by
  rw [execVerify, State.withInput_of_input hb, hf, rxCsum_of_not_complete hc]
  rfl

/-- With the whole frame CSR gets the span's sum whether the checksum byte equals it or not (R77). -/
theorem execVerify_of_complete {s : State} {b : List Byte} (hm : s.config.csumMinSpan = 4) (hb : s.input = .ok b)
    (hc : Complete b) : execVerify s =
      .next ((s.setCsr (spanSum b)).setRes (if checksumByte b = spanSum b then 0x80#8 else 0x04#8)) := by
  rw [execVerify, State.withInput_of_input hb, verify_of_complete hm hc, rxCsum_of_complete hm hc]
  by_cases hk : checksumByte b = spanSum b
  · rw [if_pos hk, if_pos hk]; rfl
  · rw [if_neg hk, if_neg hk]; rfl

/-- Settles O24: the two length tests are what `Complete` asks for, in its order. -/
theorem verifyJudgesTheChecksum : Obligations.VerifyJudgesTheChecksum := by
  intro s b hm hb
  refine ⟨by decide, ?_⟩
  split
  · next h7 => exact execVerify_of_not_complete hb (by omega) (verify_tooShort h7)
  · next h7 =>
    split
    · next hlen =>
      have hc : ¬ Complete b := by omega
      exact execVerify_of_not_complete hb hc (verify_incomplete (Nat.not_lt.mp h7) hc)
    · next hlen => exact execVerify_of_complete hm hb ⟨Nat.not_lt.mp h7, Nat.not_lt.mp hlen⟩

/-- The checksum of the received span, read with a default for the frame that is not there (R76). -/
theorem rxCsum_getD {cfg : Config} (hm : cfg.csumMinSpan = 4) (b : List Byte) (k : Byte) :
    (rxCsum cfg b).getD k = if Complete b then spanSum b else k := by
  split
  · next hc => rw [rxCsum_of_complete hm hc, Option.getD_some]
  · next hc => rw [rxCsum_of_not_complete hc, Option.getD_none]

theorem execWfchk_of_input {s : State} {b : List Byte} (hm : s.config.csumMinSpan = 4) (hb : s.input = .ok b) :
    execWfchk s = .next { s with wf := (wfClauses s.config b).word,
                                 csr := if Complete b then spanSum b else s.csr, res := 0x80#8 } := by
  rw [execWfchk, State.withInput_of_input hb, State.setCsrIf_eq, rxCsum_getD hm]
  rfl

theorem head?_eq_some_iff_byteAt (b : List Byte) (x : Byte) : b.head? = some x ↔ 1 ≤ b.length ∧ byteAt b 0 = x := by
  cases b <;> simp [byteAt]

/-- Settles O25: bits 0 to 4 of WF are the clauses and their conjunction. -/
theorem wfchkReportsTheClauses : Obligations.WfchkReportsTheClauses := by
  intro s b hm hb
  obtain ⟨h0, h1, h2, h3, h4, h5⟩ := (wfClauses s.config b).word_bits
  refine ⟨by decide, _, execWfchk_of_input hm hb, rfl, h0.trans ?_, h1.trans ?_, h2.trans ?_, h3.trans ?_, ?_, h5⟩
  · simp only [wfClauses_eq hm, head?_eq_some_iff_byteAt]
  · rw [wfClauses_eq hm]
  · rw [wfClauses_eq hm]
  · rw [wfClauses_eq hm]
  · rw [h0, h1, h2, h3, h4, WfClauses.all]

end Sys2Proof.Machine

/-! # Proofs of the statements about the decoder (42_decoder.md) -/

/-! ## The row of three bytes, the checksum gate, and delivery -/

namespace Sys2Proof

/-- A first byte other than BB is row 1 of the shape map (30_encoding.md rule R52). -/
theorem frameRow_noHeader {h : Byte} (hh : h ≠ 0xBB#8) (t c : Byte) : frameRow h t c = .frameNoHeader h t c :=
  if_pos hh

theorem frameRow_response (c : Byte) :
    frameRow 0xBB#8 0x01#8 c = if c = 0xFF#8 then .frameRspErr else .frameRspOther c := by
  simp [frameRow]

theorem frameRow_of_unknown {t c : Byte} (ht : t ≠ 0x01#8) (htag : ¬ (t = 0x02#8 ∧ c = 0x22#8)) :
    frameRow 0xBB#8 t c = if t = 0x00#8 ∧ c = 0x22#8 then .frameCmdInv else .frameOther t c := by
  rw [frameRow, if_neg (by simp), if_neg (fun h => ht h.1), if_neg ht, if_neg htag]

end Sys2Proof

namespace Sys2Proof.Machine

variable {s u : State} {cfg : Config} {ce : Bool} {b : List Byte} {i : Instr}

/-- DEC delivers the result of `dec` for the input (R92). -/
theorem exec_dec_of_input (hb : s.input = .ok b) : exec .dec s = s.deliver (dec s.config (s.cfg.getLsbD 0) b) :=
  State.withInput_of_input hb _

/-- DEC and the row of the first three bytes both deliver, behind the gate, what the shape map's path gives (R52). -/
theorem exec_eq_deliver_shapePath {h t c : Byte} (hb : s.input = .ok b) (h7 : 7 ≤ b.length) (hs : StartsWith b h t c)
    (hi : i = .dec ∨ i = frameRow h t c) :
    exec i s = s.deliver (gate s.config (s.cfg.getLsbD 0) b (shapePath s.config b h7)) := by
  rcases hi with rfl | rfl
  · exact State.decodeBy_of_seven hb h7 _
  · obtain ⟨path, hrow, hpath⟩ := exec_frameRow_eq_decodeBy s h t c
    rw [hrow, hpath b h7 hs]
    exact State.decodeBy_of_seven hb h7 path

/-- A delivered tag, register by register (R92). -/
theorem State.deliver_tagDetected_registers (s : State) (x : Byte) (pc : BitVec 16) {epc : List Byte}
    (hfits : epc.length ≤ s.config.bufCap) :
    ∃ t, s.deliver (.ok (.tagDetected x pc epc)) = .next t ∧ t.output = .ok epc ∧
      t = { s with rssi := x, pcw := pc, obuf := t.obuf, olen := epc.length, res := 0xA0#8 } :=
  ⟨_, s.deliver_tagDetected x pc hfits, s.setOutput_output epc hfits, rfl⟩

@[simp] theorem gate_false (cfg : Config) (b : List Byte) (r : Except DecodeFailure DecodedEvent) :
    gate cfg false b r = r := by
  cases r <;> rfl

/-- What the gate makes of an event, its two length and sum tests one after the other (R91). -/
theorem gate_ok_ordered (hm : cfg.csumMinSpan = 4) (ce : Bool) (h7 : 7 ≤ b.length) (e : DecodedEvent) :
    gate cfg ce b (.ok e) =
      if ce = true ∧ b.length < 5 + lenField b + 2 then .error .incompletePayload
      else if ce = true ∧ checksumByte b ≠ spanSum b then .error .badChecksum
      else .ok e := by
  rw [gate_ok hm ce h7]
  cases ce with
  | false => simp
  | true => simp only [complete_iff b h7, if_true, true_and, ite_not, ne_eq]

/-! ## Inputs that give no event (R86, R87, R90) -/

/-- Settles O29: the length floor comes before the path, and the gate lets a failure through. -/
theorem shortInputIsTooShort : Obligations.ShortInputIsTooShort := by
  intro s b hb hlen
  rw [exec_dec_of_input hb, dec, decRef, afterFloor_tooShort hlen, gate_error]
  rfl

/-- Settles O30: without the header the shape map looks at nothing else. -/
theorem wrongHeaderIsBadHeader : Obligations.WrongHeaderIsBadHeader := by
  intro s b h t c i hb h7 hs hh hi
  rw [← frameRow_noHeader hh] at hi
  rw [exec_eq_deliver_shapePath hb h7 hs hi, shapePath_eq h7 hs, if_pos hh, gate_error]
  rfl

/-- Settles O33: neither a response nor a tag notification is left, so the path is step 5. -/
theorem everythingElseIsUnknownShape : Obligations.EverythingElseIsUnknownShape := by
  intro s b t c i hb h7 hs ht htag hi
  have hrow : i = .dec ∨ i = frameRow 0xBB#8 t c := by
    rw [frameRow_of_unknown ht htag]
    rcases hi with rfl | ⟨rfl, hinv⟩ | ⟨rfl, hinv⟩
    · exact .inl rfl
    · exact .inr (if_pos hinv).symm
    · exact .inr (if_neg hinv).symm
  rw [exec_eq_deliver_shapePath hb h7 hs hrow, shapePath_eq h7 hs, if_neg (by simp), if_neg ht, if_neg htag, gate_error]
  rfl

/-! ## Responses (R88) -/

theorem shapePath_response {c : Byte} (h7 : 7 ≤ b.length) (hs : StartsWith b 0xBB#8 0x01#8 c) :
    shapePath cfg b h7 = .ok (if c = 0xFF#8 then .errorReported (byteAt b 5) else .unrecognized) := by
  rw [shapePath_eq h7 hs, if_neg (by simp), if_pos rfl, apply_ite Except.ok]

/-- Settles O31: the path gives an event whatever the length field says, and the gate alone can replace it. -/
theorem responsesAreReportedOrUnrecognized : Obligations.ResponsesAreReportedOrUnrecognized := by
  intro s b c i hm hb h7 hs hi
  have hrow : i = .dec ∨ i = frameRow 0xBB#8 0x01#8 c := by
    rw [frameRow_response]
    rcases hi with rfl | ⟨rfl, hc⟩ | ⟨rfl, hc⟩
    · exact .inl rfl
    · exact .inr (if_pos hc).symm
    · exact .inr (if_neg hc).symm
  rw [exec_eq_deliver_shapePath hb h7 hs hrow, shapePath_response h7 hs, gate_ok_ordered hm _ h7]
  split_ifs with hlen hsum hc
  · rfl
  · rfl
  · exact State.deliver_errorReported s _
  · exact State.deliver_unrecognized s

/-! ## Tag notifications (R89) -/

/-- The two ways down the tag path: a failure, or an event whose whole frame is there. -/
theorem tagPath_cases (cfg : Config) (h7 : 7 ≤ b.length) :
    ((b.length < cfg.tagMinLen ∨ b.length < 5 + lenField b + 2 ∨ lenField b < 3) ∧
      tagPath cfg b h7 = .error .incompletePayload) ∨
    (cfg.tagMinLen ≤ b.length ∧ 5 + lenField b + 2 ≤ b.length ∧ 3 ≤ lenField b ∧
      tagPath cfg b h7 =
        .ok (.tagDetected (byteAt b 5) (byteAt b 6 ++ byteAt b 7) ((b.drop 8).take (lenField b - 3)))) := by
  by_cases h : b.length < cfg.tagMinLen ∨ b.length < 5 + lenField b + 2 ∨ lenField b < 3
  · exact .inl ⟨h, tagPath_incomplete h7 (by omega)⟩
  · have hlen : 5 + lenField b + 2 ≤ b.length := by omega
    exact .inr ⟨by omega, hlen, by omega, tagPath_event h7 (by omega) ⟨h7, hlen⟩ (by omega)⟩

/-- No byte of the EPC of a whole frame is missing (R36). -/
theorem length_epc (hlen : 5 + lenField b + 2 ≤ b.length) :
    ((b.drop 8).take (lenField b - 3)).length = lenField b - 3 := by
  simp
  omega

/-- Settles O32: an event of the tag path has its whole frame, so of the gate's tests only the sum is left. -/
theorem tagNotificationDeliversTheTag : Obligations.TagNotificationDeliversTheTag := by
  intro s b i hm ht hb h7 hs hi
  have hexec := exec_eq_deliver_shapePath hb h7 hs hi
  rw [shapePath_eq h7 hs, if_neg (by simp), if_neg (by decide), if_pos ⟨rfl, rfl⟩] at hexec
  rcases tagPath_cases s.config h7 with ⟨hshort, htag⟩ | ⟨hmin, hlen, h3, htag⟩
  · rw [if_pos (ht ▸ hshort), hexec, htag, gate_error]
    rfl
  · rw [htag, gate_ok_ordered hm _ h7, if_neg (by omega)] at hexec
    rw [if_neg (by omega), hexec]
    split_ifs
    · rfl
    · have hcap := State.input_le_cap hb
      have hl := length_epc hlen
      have h := State.deliver_tagDetected_registers s (byteAt b 5) (byteAt b 6 ++ byteAt b 7)
        (epc := (b.drop 8).take (lenField b - 3)) (by omega)
      rwa [hl] at h

/-- Settles O37: a tag comes from the tag path only, which takes the EPC out of a whole frame. -/
theorem tagEventsFitTheirFrame : Obligations.TagEventsFitTheirFrame := by
  intro cfg ce b epc x pc ht h
  obtain ⟨h7, hshape⟩ := afterFloor_eq_ok (gate_eq_ok h)
  rcases shapePath_ok hshape with hp | hp | hp
  · rcases tagPath_cases cfg h7 with ⟨-, htag⟩ | ⟨hmin, hlen, h3, htag⟩
    · rw [htag] at hp
      cases hp
    · rw [htag] at hp
      cases hp
      have hl := length_epc hlen
      omega
  · cases hp
  · cases hp

/-! ## The gate (R91) -/

/-- Only the gate finds a wrong checksum. -/
theorem decRef_ne_badChecksum (cfg : Config) (b : List Byte) : decRef cfg b ≠ .error .badChecksum := by
  rw [decRef]
  by_cases h7 : 7 ≤ b.length
  · have htag : tagPath cfg b h7 ≠ .error .badChecksum := by
      rcases tagPath_cases cfg h7 with ⟨-, htag⟩ | ⟨-, -, -, htag⟩ <;> rw [htag] <;> nofun
    rw [afterFloor_of_seven h7, shapePath_eq h7 (startsWith_self h7)]
    split_ifs
    · nofun
    · nofun
    · nofun
    · exact htag
    · nofun
  · rw [afterFloor_tooShort (by omega)]
    nofun

theorem verify_error_of_seven {f : DecodeFailure} (h7 : 7 ≤ b.length) (h : verify cfg b = .error f) :
    f = .incompletePayload ∨ f = .badChecksum := by
  rw [verify, if_neg (by omega)] at h
  split at h
  · cases h
    exact .inl rfl
  · split at h
    · cases h
      exact .inr rfl
    · cases h

theorem gate_true_of_verify_ok {k : Byte} (h : verify cfg b = .ok k) (r : Except DecodeFailure DecodedEvent) :
    gate cfg true b r = r := by
  cases r with
  | error f => rfl
  | ok e => simp [gate, h]

theorem gate_true_of_verify_error {f : DecodeFailure} (h : verify cfg b = .error f) (e : DecodedEvent) :
    gate cfg true b (.ok e) = .error f := by
  simp [gate, h]

/-- Settles O34: a failure of `verify` replaces events only, and an event has passed the length floor. -/
theorem checksumGateReplacesEventsOnly : Obligations.ChecksumGateReplacesEventsOnly := by
  intro cfg b
  refine ⟨gate_false cfg b _, ?_, fun f hr => ?_, fun e hr => ⟨?_, fun f hv => ?_⟩⟩
  · rw [dec, gate_false]
    exact decRef_ne_badChecksum cfg b
  · rw [dec, hr, gate_error]
  · rintro ⟨k, hk⟩
    rw [dec, gate_true_of_verify_ok hk, hr]
  · obtain ⟨h7, -⟩ := afterFloor_eq_ok hr
    exact ⟨by rw [dec, hr, gate_true_of_verify_error hv], verify_error_of_seven h7 hv⟩

/-! ## Delivery (R92, R94) -/

theorem dec_tagDetected_length_le {x : Byte} {pc : BitVec 16} {epc : List Byte}
    (h : dec cfg ce b = .ok (.tagDetected x pc epc)) : epc.length ≤ b.length := by
  obtain ⟨h7, hshape⟩ := afterFloor_eq_ok (gate_eq_ok h)
  exact shapePath_tagsFit cfg b h7 x pc epc hshape

theorem ce_of_dec_badChecksum (h : dec cfg ce b = .error .badChecksum) : ce = true := by
  cases ce with
  | true => rfl
  | false =>
    rw [dec, gate_false] at h
    exact absurd h (decRef_ne_badChecksum cfg b)

/-- Settles O36: one result of `dec` after the other, each delivered in its own registers. -/
theorem decDeliversItsResult : Obligations.DecDeliversItsResult := by
  intro s b hb
  refine ⟨by decide, ?_⟩
  rw [exec_dec_of_input hb]
  match hr : dec s.config (s.cfg.getLsbD 0) b with
  | .ok (.tagDetected rssi pc epc) =>
    have hfits := (dec_tagDetected_length_le hr).trans (State.input_le_cap hb)
    exact State.deliver_tagDetected_registers s rssi pc hfits
  | .ok (.errorReported code) => exact State.deliver_errorReported s code
  | .ok .unrecognized => exact State.deliver_unrecognized s
  | .error .tooShort => rfl
  | .error .badHeader => rfl
  | .error .incompletePayload => rfl
  | .error .badChecksum => exact ⟨ce_of_dec_badChecksum hr, rfl⟩
  | .error .unknownShape => rfl

/-- No failure reads as a success. -/
theorem resFail_ne_of_ok (f : Failure) {r : BitVec 8} (hr : r.getLsbD 7 = true) : resFail f ≠ r := by
  rintro rfl
  obtain ⟨hok, -⟩ := resFail_fields f
  exact Bool.false_ne_true (hok.symm.trans hr)

/-- Settles O39: both states deliver one result of `dec`, into registers nothing else is read for. -/
theorem decDependsOnInputAndCeAlone : Obligations.DecDependsOnInputAndCeAlone := by
  intro s u b hs hu hconfig hce
  rw [exec_dec_of_input hs, exec_dec_of_input hu, ← hconfig, ← hce]
  match hr : dec s.config (s.cfg.getLsbD 0) b with
  | .ok (.tagDetected x pc epc) =>
    have hl := dec_tagDetected_length_le hr
    have hsfits := hl.trans (State.input_le_cap hs)
    have hufits := hl.trans (State.input_le_cap hu)
    have hout := (State.setOutput_output s epc hsfits).trans (State.setOutput_output u epc hufits).symm
    exact ⟨_, _, State.deliver_tagDetected s x pc hsfits, State.deliver_tagDetected u x pc hufits, rfl,
      fun _ => ⟨rfl, rfl, rfl, hout⟩, fun h => absurd h (by decide : (0xA0#8 : BitVec 8) ≠ 0xC0#8)⟩
  | .ok (.errorReported code) =>
    exact ⟨_, _, State.deliver_errorReported s code, State.deliver_errorReported u code, rfl,
      fun h => absurd h (by decide : (0xC0#8 : BitVec 8) ≠ 0xA0#8), fun _ => rfl⟩
  | .ok .unrecognized =>
    exact ⟨_, _, State.deliver_unrecognized s, State.deliver_unrecognized u, rfl,
      fun h => absurd h (by decide : (0xE0#8 : BitVec 8) ≠ 0xA0#8),
      fun h => absurd h (by decide : (0xE0#8 : BitVec 8) ≠ 0xC0#8)⟩
  | .error f =>
    exact ⟨_, _, rfl, rfl, rfl, fun h => absurd h (resFail_ne_of_ok _ (by decide)),
      fun h => absurd h (resFail_ne_of_ok _ (by decide))⟩

end Sys2Proof.Machine

/-! # Proofs of the statements about the extractor (43_payload.md) -/

namespace Sys2Proof.Machine

variable {s : State} {cfg : Config} {b p : List Byte}

/-! ## The round trip through the encoder (R107) -/

/-- The frame record the encoder writes out (40_encoder.md rule R65); `toBytes_encFrame` ties it to `enc`. -/
def encFrame (cfg : Config) (t c : Byte) (p : List Byte) : Frame where
  header := header
  frameType := t
  command := c
  payloadLength := BitVec.ofNat 16 p.length
  payload := p
  checksum := encChecksum cfg t c p
  terminator := terminator

theorem encFrame_payloadLength (cfg : Config) (t c : Byte) (hp : p.length ≤ 65535) :
    (encFrame cfg t c p).payloadLength.toNat = p.length :=
  Nat.mod_eq_of_lt (by omega)

theorem toBytes_encFrame (cfg : Config) (t c : Byte) (hp : p.length ≤ 65535) :
    (encFrame cfg t c p).toBytes = enc cfg t c p := by
  rw [Frame.toBytes, Frame.span, encFrame_payloadLength cfg t c hp]
  rfl

/-- A built frame is read back whatever follows it and whatever its checksum byte is. -/
theorem frameAt_enc (cfg : Config) (t c : Byte) (hp : p.length ≤ 65535) (x : List Byte) :
    frameAt (enc cfg t c p ++ x) = some (encFrame cfg t c p) := by
  obtain ⟨-, hread⟩ := frameBytesRoundTrip
  rw [← toBytes_encFrame cfg t c hp]
  exact hread _ x (encFrame_payloadLength cfg t c hp).symm

/-- The extractor's result is the payload of the frame the accessor reads, its header judged (R105). -/
theorem pext_of_frameAt {f : Frame} (h : frameAt b = some f) (hh : f.header = 0xBB#8) : pext b = .ok f.payload := by
  obtain ⟨hc, rfl⟩ := frameAt_eq_some h
  exact pext_of_complete hh hc

/-- Settles O20: the accessor reads the built frame back, and the extractor looks neither at its checksum nor at what
follows it. -/
theorem payloadRoundTrip : Obligations.PayloadRoundTrip := by
  intro cfg t c p x hp
  have hpext (y : List Byte) : pext (enc cfg t c p ++ y) = .ok p := pext_of_frameAt (frameAt_enc cfg t c hp y) rfl
  exact ⟨by simpa using hpext [], hpext x⟩

/-! ## PEXT (R106) -/

theorem exec_pext (s : State) : exec .pext s = execPext s := rfl

theorem exec_pext_of_error {f : DecodeFailure} (hb : s.input = .ok b) (h : pext b = .error f) :
    exec .pext s = s.fail (.decode f) := by
  rw [exec_pext, execPext, State.withInput_of_input hb, h]

/-- An extracted payload fits OBUF because the input it is part of fits IBUF. -/
theorem exec_pext_of_ok (hb : s.input = .ok b) (h : pext b = .ok p) :
    ∃ t, exec .pext s = .next t ∧ t.output = .ok p ∧ t = { s with obuf := t.obuf, olen := p.length, res := 0x80#8 } := by
  have hfits := (pext_length_le h).trans (State.input_le_cap hb)
  refine ⟨(s.setOutput p).setRes 0x80#8, ?_, s.setOutput_output p hfits, rfl⟩
  rw [exec_pext, execPext, State.withInput_of_input hb, h]
  exact State.withOutput_of_le hfits _

/-- No byte of the payload of a whole frame is missing (R36). -/
theorem frameOf_payload_length (hc : Complete b) : (frameOf b).payload.length = lenField b := by
  have hlen := hc.2
  simp [frameOf]
  omega

/-- Settles O27: the four ways through `pext`, in its order. -/
theorem pextExtractsThePayload : Obligations.PextExtractsThePayload := by
  intro s b hb
  refine ⟨by decide, ?_⟩
  split_ifs with h7 hh hlen
  · exact exec_pext_of_error hb (pext_tooShort h7)
  · exact exec_pext_of_error hb (pext_badHeader (Nat.not_lt.mp h7) hh)
  · exact exec_pext_of_error hb (pext_incomplete (Nat.not_lt.mp h7) (not_not.mp hh) (by omega))
  · have hc : Complete b := ⟨Nat.not_lt.mp h7, Nat.not_lt.mp hlen⟩
    have h := exec_pext_of_ok hb (pext_of_complete (not_not.mp hh) hc)
    rwa [show ((b.drop 5).take (lenField b)).length = lenField b from frameOf_payload_length hc] at h

/-! ## The decoder's fields and the payload (R108) -/

/-- A payload is extracted from a whole frame only (R105). -/
theorem pext_eq_ok (h : pext b = .ok p) : Complete b ∧ p = (frameOf b).payload := by
  unfold pext at h
  split_ifs at h
  split at h
  · cases h
  · next f hf =>
    obtain ⟨hc, rfl⟩ := frameAt_eq_some hf
    cases h
    exact ⟨hc, rfl⟩

/-- Byte `i` of the payload is byte `5 + i` of the frame (30_encoding.md rule R49). -/
theorem byteAt_frameOf_payload {i : Nat} (hi : i < lenField b) : byteAt (frameOf b).payload i = byteAt b (5 + i) := by
  simp [byteAt, frameOf, hi]

theorem frameOf_payload_drop_three (b : List Byte) : (frameOf b).payload.drop 3 = (b.drop 8).take (lenField b - 3) := by
  simp [frameOf, List.drop_take]

/-- Without the header there is no event (R87). -/
theorem header_of_decRef_ok {e : DecodedEvent} (h : decRef cfg b = .ok e) : byteAt b 0 = 0xBB#8 := by
  obtain ⟨h7, hshape⟩ := afterFloor_eq_ok h
  by_contra hh
  rw [shapePath_eq h7 (startsWith_self h7), if_pos hh] at hshape
  cases hshape

/-- A tag comes from the tag path only. -/
theorem tagPath_of_decRef_tagDetected {x : Byte} {pc : BitVec 16} {epc : List Byte}
    (h : decRef cfg b = .ok (.tagDetected x pc epc)) : ∃ h7, tagPath cfg b h7 = .ok (.tagDetected x pc epc) := by
  obtain ⟨h7, hshape⟩ := afterFloor_eq_ok h
  rcases shapePath_ok hshape with hp | hp | hp
  · exact ⟨h7, hp⟩
  · cases hp
  · cases hp

/-- An error code is byte 5, whatever the length field says (90_conflicts.md C2). -/
theorem decRef_errorReported {code : Byte} (h : decRef cfg b = .ok (.errorReported code)) : code = byteAt b 5 := by
  obtain ⟨h7, hshape⟩ := afterFloor_eq_ok h
  rcases shapePath_ok hshape with hp | hp | hp
  · obtain ⟨_, _, _, he, -⟩ := tagPath_ok hp
    cases he
  · cases hp
    exact (byteAt_eq_getElem (by omega)).symm
  · cases hp

/-- A tag is the extractor's payload cut in three. -/
theorem pext_of_decRef_tagDetected {x : Byte} {pc : BitVec 16} {epc : List Byte}
    (h : decRef cfg b = .ok (.tagDetected x pc epc)) :
    ∃ p, pext b = .ok p ∧ 3 ≤ p.length ∧ byteAt p 0 = x ∧ byteAt p 1 ++ byteAt p 2 = pc ∧ p.drop 3 = epc := by
  have hh := header_of_decRef_ok h
  obtain ⟨h7, hpath⟩ := tagPath_of_decRef_tagDetected h
  rcases tagPath_cases cfg h7 with ⟨-, htag⟩ | ⟨-, hlen, h3, htag⟩ <;> rw [htag] at hpath <;> cases hpath
  have hc : Complete b := ⟨h7, hlen⟩
  refine ⟨(frameOf b).payload, pext_of_complete hh hc, by rwa [frameOf_payload_length hc],
    byteAt_frameOf_payload (by omega), ?_, frameOf_payload_drop_three b⟩
  rw [byteAt_frameOf_payload (by omega), byteAt_frameOf_payload (by omega)]

/-- The code of an error report is the first byte of a payload that is there. -/
theorem errorReported_code_eq_head {code : Byte} (h : decRef cfg b = .ok (.errorReported code)) (hp : pext b = .ok p)
    (hne : p ≠ []) : code = byteAt p 0 := by
  obtain ⟨hc, rfl⟩ := pext_eq_ok hp
  have hlen := List.length_pos_iff.mpr hne
  rw [frameOf_payload_length hc] at hlen
  rw [decRef_errorReported h, byteAt_frameOf_payload hlen]

/-- A tag notification that the tag path does not accept (R89). -/
theorem decRef_tag_incomplete (h7 : 7 ≤ b.length) (hs : StartsWith b 0xBB#8 0x02#8 0x22#8)
    (h : b.length < cfg.tagMinLen ∨ ¬ Complete b ∨ lenField b < 3) : decRef cfg b = .error .incompletePayload := by
  rw [decRef, afterFloor_of_seven h7, shapePath_eq h7 hs, if_neg (by simp), if_neg (by decide), if_pos ⟨rfl, rfl⟩,
    tagPath_incomplete h7 h]

/-- Settles O28: the converses fail on the inventory command, a tag notification with PL = 2, the complete one of ten
bytes with PL = 3, and an error report one byte short. -/
theorem decodedFieldsAreThePayload : Obligations.DecodedFieldsAreThePayload := by
  refine ⟨fun cfg b epc x pc => pext_of_decRef_tagDetected, fun cfg b p code => errorReported_code_eq_head,
    fun cfg hmin => ⟨?_, ?_, ?_, ?_⟩⟩
  · exact ⟨[0xBB, 0x00, 0x22, 0x00, 0x00, 0x22, 0x7E], [], by decide, rfl⟩
  · exact ⟨[0xBB, 0x02, 0x22, 0x00, 0x02, 0xC4, 0x30, 0x1A, 0x7E, 0x00, 0x00], [0xC4, 0x30], rfl, by decide, by decide,
      decRef_tag_incomplete (by decide) rfl (.inr (.inr (by decide)))⟩
  · exact ⟨[0xBB, 0x02, 0x22, 0x00, 0x03, 0xC4, 0x30, 0x00, 0x1B, 0x7E], [0xC4, 0x30, 0x00], rfl, rfl, by decide,
      by decide, decRef_tag_incomplete (by decide) rfl (.inl (by rw [hmin]; decide))⟩
  · exact ⟨[0xBB, 0x01, 0xFF, 0x00, 0x01, 0x15, 0x16], 0x15, rfl, by decide⟩

end Sys2Proof.Machine

/-! # Proofs of the statements about the control operations (44_control.md) -/

/-! ## CLR, PUSH, SETCFG -/

namespace Sys2Proof.Machine

theorem execPush_of_lt {s : State} (x : Byte) (hroom : s.ilen < s.config.bufCap) :
    execPush x s = .next (s.pushInput x) := if_pos hroom

theorem execPush_of_ge {s : State} (x : Byte) (hfull : s.config.bufCap ≤ s.ilen) :
    execPush x s = .next (s.setFlg (flgSetOvf s.flg)) := if_neg (Nat.not_lt.mpr hfull)

theorem getLsbD_cfgOf (v : Byte) (k : Nat) : (cfgOf v).getLsbD k = (v.getLsbD k && decide (k = 0)) := by
  cases k <;> simp [cfgOf]

/-- Settles O11: room in IBUF or none are the two cases of PUSH, and the byte pushed is the byte of IBUF at the old
ILEN. -/
theorem pushAppendsOrSetsOverflow : Obligations.PushAppendsOrSetsOverflow := by
  intro s x
  refine ⟨Laws.RoundTrip.push x rfl, fun hroom => ?_, fun hfull => ?_⟩
  · refine ⟨s.pushInput x, execPush_of_lt x hroom, rfl, ?_, fun a ha => ?_,
      fun b hb => State.pushInput_input x hb hroom⟩
    · rw [State.pushInput_ibufByte, if_pos ⟨rfl, hroom⟩]
    · rw [State.pushInput_ibufByte, if_neg (not_and_of_not_left _ ha)]
  · refine ⟨s.setFlg (flgSetOvf s.flg), execPush_of_ge x hfull, rfl, ?_, fun k hk => ?_⟩
    · rw [State.setFlg_flg, getLsbD_flgSetOvf]
      simp
    · rw [State.setFlg_flg, getLsbD_flgSetOvf]
      simp [hk.ne']

/-- Settles O10: ILEN = 0 is the empty input, and of FLG only OVF is written. -/
theorem clrEmptiesTheInput : Obligations.ClrEmptiesTheInput := by
  refine ⟨Laws.RoundTrip.clr rfl, fun s => ?_⟩
  refine ⟨(s.setIlen 0).setFlg (flgClearOvf s.flg), rfl, rfl, ?_, fun k hk => ?_, rfl⟩
  · rw [State.setFlg_flg, getLsbD_flgClearOvf]
    simp
  · rw [State.setFlg_flg, getLsbD_flgClearOvf]
    simp [hk.ne']

/-- Settles O12: SETCFG writes CFG alone, the bits of `cfgOf`. -/
theorem setcfgKeepsBitZeroOnly : Obligations.SetcfgKeepsBitZeroOnly := by
  intro s v
  refine ⟨Laws.RoundTrip.setcfg v rfl, s.setCfg (cfgOf v), rfl, rfl, ?_, fun k hk => ?_⟩
  · rw [State.setCfg_cfg, getLsbD_cfgOf]
    simp
  · rw [State.setCfg_cfg, getLsbD_cfgOf]
    simp [hk.ne']

end Sys2Proof.Machine

/-! # Proofs of the statements about failures (60_exceptions.md) -/

namespace Sys2Proof.Machine

variable {s t : State} {i : Instr}

/-- A computing operation that leaves RES.OK = 0 wrote RES alone, or is VERIFY on a wrong checksum, which wrote CSR
too. -/
theorem Effect.of_res_not_ok (h : Effect s i t) (hi : i.computes = true) (hok : t.res.getLsbD 7 = false) :
    t = s.setRes t.res ∨ (i = .verify ∧ ∃ k, t = (s.setCsr k).setRes 0x04#8) := by
  cases h with
  | failed => exact .inl rfl
  | mismatch k => exact .inr ⟨rfl, k, rfl⟩
  | clear | push | overflow | configure => cases hi
  | reserved _ hr => rw [Instr.not_computes_of_isReserved hr] at hi; cases hi
  | frame | checksum | verified | checked | payload | tag | errorReport | unrecognized => simp at hok

/-- Settles O47: a failure leaves the state with RES new, and CSR too in VERIFY's case of `Effect.of_res_not_ok`. -/
theorem failureChangesResOnly : Obligations.FailureChangesResOnly := by
  intro s t i h hi hok
  rcases (exec_effect h).of_res_not_ok hi hok with ht | ⟨rfl, k, rfl⟩
  · rw [ht]
    exact ⟨rfl, fun hcsr => absurd rfl hcsr⟩
  · exact ⟨rfl, fun _ => ⟨rfl, rfl⟩⟩

end Sys2Proof.Machine

/-! # Proofs of the statements about reset and completion (70_reset_and_hazards.md) -/

namespace Sys2Proof.Machine

variable {s : State}

theorem cfgReset_eq_ite (ce : Bool) : cfgReset ce = if ce then 0x01#8 else 0x00#8 := by
  cases ce <;> rfl

/-- Settles O8: the step is the reset event, whose lengths are 0 and whose WF is masked to bits 4:0. -/
theorem resetEventLeavesTheSpecValues : Obligations.ResetEventLeavesTheSpecValues := by
  intro s es hscript
  exact ⟨(s.setScript es).resetEvent, step_reset hscript, rfl, rfl, rfl, rfl, cfgReset_eq_ite s.config.ceReset,
    extractLsb'_and_0x1F _, rfl, rfl, rfl, rfl⟩

/-- `noOperationReadsAnUnspecifiedValue` says that two alike states both get an answer; here they are one state. -/
theorem State.Inv.exists_exec_next (hs : s.Inv) (i : Instr) : ∃ t, exec i s = .next t := by
  obtain ⟨t, -, ht, -⟩ := noOperationReadsAnUnspecifiedValue s s i hs hs rfl rfl rfl rfl rfl
  exact ⟨t, ht⟩

/-- Settles O51: an idle step and a reset always complete, and a command completes by the invariant. -/
theorem everyStepCompletes : Obligations.EveryStepCompletes := by
  intro s hs
  match hscript : s.script with
  | [] => exact ⟨s, step_idle hscript⟩
  | .reset :: es => exact ⟨(s.setScript es).resetEvent, step_reset hscript⟩
  | .command w :: es =>
    rw [step_command hscript]
    exact (hs.setScript es).exists_exec_next (decodeCommand w)

end Sys2Proof.Machine

/-! # Proofs of the statements that span several units -/

/-! ## Bytes of OBUF beyond a result, and the reserved codes -/

namespace Sys2Proof.Machine

variable {s t : State} {i : Instr}

/-- The only effects that touch OBUF write a result, all of it below the new OLEN (10_state.md rule R14). -/
theorem Effect.obufByte_beyond (h : Effect s i t) {a : Nat} (ha : t.olen ≤ a) : t.obufByte a = s.obufByte a := by
  cases h with
  | frame _ bs => exact s.setOutput_obufByte_beyond bs ha
  | payload p => exact s.setOutput_obufByte_beyond p ha
  | tag _ _ _ epc => exact s.setOutput_obufByte_beyond epc ha
  | clear | push | overflow | configure | reserved | failed => rfl
  | checksum | verified | mismatch | checked | errorReport | unrecognized => rfl

/-- Settles O45: by `Effect.obufByte_beyond`. -/
theorem outputBytesBeyondOlenAreKept : Obligations.OutputBytesBeyondOlenAreKept :=
  fun _ _ _ h _ ha => (exec_effect h).obufByte_beyond ha

/-- Settles O13: all six arms answer `State.unchanged`. -/
theorem reservedCodesChangeNothing : Obligations.ReservedCodesChangeNothing := by
  rintro s i (rfl | rfl | rfl | rfl | rfl | rfl) <;> rfl

end Sys2Proof.Machine

/-! ## A frame row placed where the next step runs it -/

namespace Sys2Proof

/-- A key of at least 20 bits is a frame row, byte by byte (log 10). -/
theorem tableEncoding_frameKey {h : Byte} (t c : Byte) (hh : 16 ≤ h.toNat) :
    tableEncoding 24 (h.toNat * 65536 + t.toNat * 256 + c.toNat) = some (.frame h t c) := by
  have h1 := h.isLt
  have h2 := t.isLt
  have h3 := c.isLt
  rw [tableEncoding, if_neg (by decide), if_neg (by omega), if_neg (by omega), Option.some_inj, Encoding.frame.injEq]
  refine ⟨?_, ?_, ?_⟩ <;> apply BitVec.eq_of_toNat_eq <;> rw [BitVec.toNat_ofNat] <;> omega

@[simp] theorem decodeCommand_dec : decodeCommand (commandWord 0x9 0 0) = .dec := Laws.RoundTrip.dec rfl

end Sys2Proof

namespace Sys2Proof.Machine

/-- A placed frame row is run by a DEC on its seven bytes (log 11). -/
theorem step_placeEncoding_frame (s : State) (h t c : Byte) :
    step (s.placeEncoding (.frame h t c)) = exec .dec (s.placeInput [h, t, c, 0, 0, 0, 0]) := by
  rw [State.placeEncoding, step_command (State.placeCommand_script _ _), decodeCommand_dec]
  rfl

/-- Settles O7: the DEC that is placed runs the row that its seven bytes select (`decRunsTheRowOfTheShapeMap`). -/
theorem placedFrameRowRunsNext : Obligations.PlacedFrameRowRunsNext := by
  intro s h t c hcap hh
  have hinput := s.placeInput_input [h, t, c, 0, 0, 0, 0] hcap
  rw [State.withFetchWord, tableEncoding_frameKey t c hh]
  exact (step_placeEncoding_frame s h t c).trans (decRunsTheRowOfTheShapeMap _ _ hinput (by simp))

end Sys2Proof.Machine

/-! ## The checksum as a sum of bytes (41_checksum.md rule R74) -/

namespace Sys2Proof.Machine

/-- The sum modulo 256 is the sum in the ring of bytes, so that the library's laws of list sums speak of it. -/
theorem sum256_eq_sum (b : List Byte) : sum256 b = b.sum := by
  induction b with
  | nil => rfl
  | cons x b ih =>
    rw [List.sum_cons, ← ih, sum256, sum256, List.map_cons, List.sum_cons, BitVec.ofNat_add, BitVec.ofNat_toNat,
      BitVec.setWidth_eq]

/-- Settles O23: laws of list sums. -/
theorem checksumArithmetic : Obligations.ChecksumArithmetic := by
  intro cfg s t hm hs
  have hsum {b : List Byte} (hb : 4 ≤ b.length) : csum cfg b = b.sum :=
    (csum_eq_sum256 (hm ▸ hb)).trans (sum256_eq_sum b)
  rw [hsum hs, sum256_eq_sum]
  refine ⟨List.sum_eq_foldl, fun hperm => ?_, ?_, List.sum_eq_zero⟩
  · rw [hsum (hperm.length_eq ▸ hs)]
    exact hperm.sum_eq.symm
  · rw [hsum (by simp; omega), List.sum_append]

/-! ## One byte of a frame changed (41_checksum.md section 3) -/

theorem byteAt_set_same {b : List Byte} {k : Nat} (v : Byte) (h : k < b.length) : byteAt (b.set k v) k = v := by
  simp [byteAt, h]

theorem byteAt_set_other (b : List Byte) (v : Byte) {k j : Nat} (h : k ≠ j) : byteAt (b.set k v) j = byteAt b j := by
  simp [byteAt, h]

section

variable {cfg : Config} {b : List Byte} {k : Nat} (v : Byte)

theorem lenField_set (h3 : k ≠ 3) (h4 : k ≠ 4) : lenField (b.set k v) = lenField b := by
  rw [lenField, byteAt_set_other b v h3, byteAt_set_other b v h4, lenField]

theorem checksumByte_set_other (h3 : k ≠ 3) (h4 : k ≠ 4) (hk : k ≠ 5 + lenField b) :
    checksumByte (b.set k v) = checksumByte b := by
  rw [checksumByte, lenField_set v h3 h4, byteAt_set_other b v hk, checksumByte]

/-- A byte of the span counts once in its sum. -/
theorem spanSum_set_inside (hc : Complete b) (h3 : k ≠ 3) (h4 : k ≠ 4) (hlo : 1 ≤ k) (hhi : k < 5 + lenField b) :
    spanSum (b.set k v) = spanSum b + (-byteAt b k + v) := by
  have hlen := hc.2
  rw [spanSum, lenField_set v h3 h4, spanSum, List.drop_set, if_neg (by omega), List.take_set, sum256_eq_sum,
    sum256_eq_sum, List.sum_set', dif_pos (by simp; omega), byteAt_eq_getElem (by omega)]
  simp [Nat.sub_add_cancel hlo]

/-- A byte outside the span does not count. -/
theorem spanSum_set_outside (h3 : k ≠ 3) (h4 : k ≠ 4) (h : k = 0 ∨ 5 + lenField b ≤ k) :
    spanSum (b.set k v) = spanSum b := by
  rw [spanSum, lenField_set v h3 h4, spanSum]
  rcases h with rfl | h
  · rw [List.drop_set, if_pos (by decide)]
  · rw [List.drop_set, if_neg (by omega), List.take_set_of_le (by omega)]

/-- For a complete frame whose length bytes stay, the clause compares the checksum byte with the sum of the span. -/
theorem wfClauses_c_set (hm : cfg.csumMinSpan = 4) (hc : Complete b) (h3 : k ≠ 3) (h4 : k ≠ 4) :
    (wfClauses cfg (b.set k v)).c = decide (checksumByte (b.set k v) = spanSum (b.set k v)) := by
  have hset : Complete (b.set k v) := by
    rw [Complete, lenField_set v h3 h4, List.length_set]
    exact hc
  rw [wfClauses_eq hm, decide_eq_decide]
  exact and_iff_right hset

end

/-- Settles O26: a new byte of the span moves the sum, a new checksum byte moves the other side of the comparison, and
header and terminator are on neither side. -/
theorem singleByteChangesAreDetected : Obligations.SingleByteChangesAreDetected := by
  intro cfg b k v hm hc hclause
  have hlen := hc.2
  have hsum : checksumByte b = spanSum b := by
    rw [wfClauses_eq hm] at hclause
    exact (of_decide_eq_true hclause).2
  refine ⟨fun hk hv => ?_, fun hk => ?_⟩
  · have h3 : k ≠ 3 := by omega
    have h4 : k ≠ 4 := by omega
    rw [wfClauses_c_set v hm hc h3 h4, decide_eq_false_iff_not]
    by_cases hlast : k = 5 + lenField b
    · rw [checksumByte, lenField_set v h3 h4, spanSum_set_outside v h3 h4 (by omega), ← hlast,
        byteAt_set_same v (by omega), ← hsum, checksumByte, ← hlast]
      exact hv
    · rw [checksumByte_set_other v h3 h4 hlast, spanSum_set_inside v hc h3 h4 (by omega) (by omega), hsum,
        left_eq_add, neg_add_eq_zero]
      exact hv.symm
  · have h3 : k ≠ 3 := by omega
    have h4 : k ≠ 4 := by omega
    rw [wfClauses_c_set v hm hc h3 h4, checksumByte_set_other v h3 h4 (by omega),
      spanSum_set_outside v h3 h4 (by omega)]
    exact decide_eq_true hsum

end Sys2Proof.Machine

/-! ## Bytes after a frame (20_memory.md rule R37) -/

namespace Sys2Proof.Machine

variable {cfg : Config} {ce : Bool} {b : List Byte}

/-- The results that only say that bytes are missing, so that more bytes may change them: every other result of
`verify`, `decRef` and `dec` stands whatever follows (`verify_append`, `decRef_append`, `dec_append`). -/
def LacksBytes {α : Type} (r : Except DecodeFailure α) : Prop :=
  r = .error .tooShort ∨ r = .error .incompletePayload

theorem not_lacksBytes_ok {α : Type} (a : α) : ¬ LacksBytes (.ok a) := by
  rintro (h | h) <;> cases h

theorem lacksBytes_error {α : Type} (f : DecodeFailure) :
    LacksBytes (.error f : Except DecodeFailure α) ↔ f = .tooShort ∨ f = .incompletePayload := by
  simp [LacksBytes]

/-- Only a whole frame has its checksum judged. -/
theorem complete_of_verify (h : ¬ LacksBytes (verify cfg b)) : Complete b := by
  by_contra hc
  by_cases h7 : 7 ≤ b.length
  · exact h (.inr (verify_incomplete h7 hc))
  · exact h (.inl (verify_tooShort (by omega)))

theorem verify_append (h : ¬ LacksBytes (verify cfg b)) (x : List Byte) : verify cfg (b ++ x) = verify cfg b := by
  have hc := complete_of_verify h
  have hf := frameAt_of_complete hc
  rw [verify, verify, if_neg (Nat.not_lt.mpr (complete_append x hc).1), if_neg (Nat.not_lt.mpr hc.1), frameAt_append hf,
    hf]

theorem tagPath_append (h7 : 7 ≤ b.length) (h : ¬ LacksBytes (tagPath cfg b h7)) (x : List Byte)
    (hx : 7 ≤ (b ++ x).length) : tagPath cfg (b ++ x) hx = tagPath cfg b h7 := by
  rcases tagPath_cases cfg h7 with ⟨-, htag⟩ | ⟨hmin, hlen, h3, htag⟩
  · exact absurd (.inr htag) h
  · have hl : lenField (b ++ x) = lenField b := lenField_append (by omega)
    rw [htag, tagPath_event hx (by simp; omega) (complete_append x ⟨h7, hlen⟩) (by rwa [hl]), hl,
      byteAt_append (by omega), byteAt_append (by omega), byteAt_append (by omega),
      List.drop_append_of_le_length (by omega), List.take_append_of_le_length (by simp; omega)]

/-- The first three bytes select the same path, and the code of an error report is byte 5. -/
theorem shapePath_append (h7 : 7 ≤ b.length) (h : ¬ LacksBytes (shapePath cfg b h7)) (x : List Byte)
    (hx : 7 ≤ (b ++ x).length) : shapePath cfg (b ++ x) hx = shapePath cfg b h7 := by
  have hs := startsWith_self h7
  have hsx : StartsWith (b ++ x) (byteAt b 0) (byteAt b 1) (byteAt b 2) := by
    rwa [StartsWith, List.take_append_of_le_length (by omega)]
  rw [shapePath_eq h7 hs] at h ⊢
  rw [shapePath_eq hx hsx, byteAt_append (by omega)]
  split_ifs at h ⊢
  · rfl
  · rfl
  · rfl
  · exact tagPath_append h7 h x hx
  · rfl

theorem decRef_append (h : ¬ LacksBytes (decRef cfg b)) (x : List Byte) : decRef cfg (b ++ x) = decRef cfg b := by
  by_cases h7 : 7 ≤ b.length
  · have hx : 7 ≤ (b ++ x).length := by simp; omega
    rw [decRef, afterFloor_of_seven h7] at h
    rw [decRef, afterFloor_of_seven hx, shapePath_append h7 h x hx, decRef, afterFloor_of_seven h7]
  · exact absurd (.inl (afterFloor_tooShort (by omega))) h

theorem gate_append {e : DecodedEvent} (h : ¬ LacksBytes (gate cfg ce b (.ok e))) (x : List Byte) :
    gate cfg ce (b ++ x) (.ok e) = gate cfg ce b (.ok e) := by
  cases ce with
  | false => rw [gate_false, gate_false]
  | true =>
    match hv : verify cfg b with
    | .ok k =>
      have hvx := (verify_append (hv ▸ not_lacksBytes_ok k) x).trans hv
      rw [gate_true_of_verify_ok hv, gate_true_of_verify_ok hvx]
    | .error f =>
      rw [gate_true_of_verify_error hv, lacksBytes_error] at h
      have hvx := (verify_append (by rwa [hv, lacksBytes_error]) x).trans hv
      rw [gate_true_of_verify_error hv, gate_true_of_verify_error hvx]

/-- A result that lacks no bytes came from a decoder and a gate that both lacked none. -/
theorem dec_append (h : ¬ LacksBytes (dec cfg ce b)) (x : List Byte) : dec cfg ce (b ++ x) = dec cfg ce b := by
  have hdec : dec cfg ce b = gate cfg ce b (decRef cfg b) := rfl
  match hr : decRef cfg b with
  | .error f =>
    rw [hdec, hr, gate_error] at h ⊢
    rw [dec, decRef_append (hr ▸ h), hr, gate_error]
  | .ok e =>
    rw [hdec, hr] at h ⊢
    rw [dec, decRef_append (hr ▸ not_lacksBytes_ok e), hr, gate_append h]

/-- Settles O38: neither an event nor one of the three failures lacks bytes. -/
theorem trailingBytesNeverChangeAnEvent : Obligations.TrailingBytesNeverChangeAnEvent := by
  intro cfg ce b x
  refine ⟨fun e h => ?_, fun f hf h => ?_⟩
  · rw [dec_append (h ▸ not_lacksBytes_ok e), h]
  · have hlacks : ¬ LacksBytes (dec cfg ce b) := by
      rw [h, lacksBytes_error]
      rcases hf with rfl | rfl | rfl <;> decide
    rw [dec_append hlacks, h]

end Sys2Proof.Machine

/-! ## A frame row on any input (log 9) -/

namespace Sys2Proof.Machine

variable {s : State} {b : List Byte} {i : Instr}

/-- DEC and every frame row decode by a path. -/
theorem exec_eq_decodeBy_of_decodes (hi : i.decodes = true) (s : State) :
    ∃ path : DecodePath, exec i s = s.decodeBy path := by
  cases i with
  | dec => exact ⟨shapePath s.config, rfl⟩
  | frameRspErr => exact ⟨errorReportPath, rfl⟩
  | frameRspOther => exact ⟨otherResponsePath, rfl⟩
  | frameNtfTag => exact ⟨tagPath s.config, rfl⟩
  | frameCmdInv | frameOther => exact ⟨unknownShapePath, rfl⟩
  | frameNoHeader => exact ⟨badHeaderPath, rfl⟩
  | clr | push | enc | encInv | csum | verify | wfchk | pext | setcfg => cases hi
  | reserved0 | reservedB | reservedC | reservedD | reservedE | reservedF => cases hi

theorem State.decodeBy_tooShort (hb : s.input = .ok b) (hlen : b.length < 7) (path : DecodePath) :
    s.decodeBy path = .next (s.setRes 0x01#8) := by
  rw [State.decodeBy, State.withInput_of_input hb, afterFloor_tooShort hlen, gate_error]
  rfl

/-- A path that fails is delivered as its failure, whatever CE is. -/
theorem State.decodeBy_of_error {path : DecodePath} {f : DecodeFailure} (hb : s.input = .ok b) (h7 : 7 ≤ b.length)
    (hp : path b h7 = .error f) : s.decodeBy path = .next (s.setRes (resFail (.decode f))) := by
  rw [State.decodeBy_of_seven hb h7, hp, gate_error]
  rfl

/-- A path that gives an event is delivered as the event, unless CE is set and the frame is cut or its sum wrong. -/
theorem State.decodeBy_of_ok {path : DecodePath} {e : DecodedEvent} (hm : s.config.csumMinSpan = 4)
    (hb : s.input = .ok b) (h7 : 7 ≤ b.length) (hp : path b h7 = .ok e) :
    s.decodeBy path =
      if s.cfg.getLsbD 0 = true ∧ b.length < 5 + lenField b + 2 then .next { s with res := 0x03#8 }
      else if s.cfg.getLsbD 0 = true ∧ checksumByte b ≠ spanSum b then .next { s with res := 0x04#8 }
      else s.deliver (.ok e) := by
  rw [State.decodeBy_of_seven hb h7, hp, gate_ok_ordered hm _ h7, apply_ite s.deliver, apply_ite s.deliver]
  rfl

/-- The tag row on any input that passes the length floor: of the gate's tests only the sum is left (R89, R91). -/
theorem exec_frameNtfTag_of_input (hm : s.config.csumMinSpan = 4) (hb : s.input = .ok b) (h7 : 7 ≤ b.length) :
    if b.length < s.config.tagMinLen ∨ b.length < 5 + lenField b + 2 ∨ lenField b < 3 then
      exec .frameNtfTag s = .next { s with res := 0x03#8 }
    else if s.cfg.getLsbD 0 = true ∧ checksumByte b ≠ spanSum b then
      exec .frameNtfTag s = .next { s with res := 0x04#8 }
    else
      ∃ t, exec .frameNtfTag s = .next t ∧ t.output = .ok ((b.drop 8).take (lenField b - 3)) ∧
        t = { s with rssi := byteAt b 5, pcw := byteAt b 6 ++ byteAt b 7, obuf := t.obuf, olen := lenField b - 3,
                     res := 0xA0#8 } := by
  rcases tagPath_cases s.config h7 with ⟨hshort, htag⟩ | ⟨hmin, hlen, h3, htag⟩
  · rw [if_pos hshort]
    exact State.decodeBy_of_error hb h7 htag
  · have hexec := State.decodeBy_of_ok hm hb h7 htag
    rw [if_neg (by omega)] at hexec
    rw [if_neg (by omega)]
    split_ifs at hexec ⊢
    · exact hexec
    · have hcap := State.input_le_cap hb
      have hl := length_epc hlen
      obtain ⟨t, ht, hout, hregs⟩ := State.deliver_tagDetected_registers s (byteAt b 5) (byteAt b 6 ++ byteAt b 7)
        (epc := (b.drop 8).take (lenField b - 3)) (by omega)
      exact ⟨t, hexec.trans ht, hout, hl ▸ hregs⟩

/-- Settles O35: a row is its path behind the length floor and the gate, whatever bytes the input starts with. -/
theorem frameRowsRunTheirPathOnAnyInput : Obligations.FrameRowsRunTheirPathOnAnyInput := by
  intro s b i hm ht hb
  refine ⟨fun hlen hi => ?_, fun h7 hi => ?_, fun h7 hi => ?_, fun h7 hi => ?_, fun h7 hi => ?_⟩
  · obtain ⟨path, hpath⟩ := exec_eq_decodeBy_of_decodes hi s
    exact hpath.trans (State.decodeBy_tooShort hb hlen path)
  · obtain ⟨h, t, c, rfl⟩ := hi
    exact State.decodeBy_of_error (path := badHeaderPath) hb h7 rfl
  · have hrow : exec i s = s.decodeBy unknownShapePath := by
      obtain rfl | ⟨t, c, rfl⟩ := hi <;> rfl
    exact hrow.trans (State.decodeBy_of_error (f := .unknownShape) hb h7 rfl)
  · simp only [apply_ite Host.Outcome.next]
    obtain rfl | ⟨c, rfl⟩ := hi
    · have hcode : errorReportPath b h7 = .ok (.errorReported (byteAt b 5)) := by
        rw [errorReportPath, byteAt_eq_getElem (by omega)]
      have hexec := State.decodeBy_of_ok hm hb h7 hcode
      rw [State.deliver_errorReported] at hexec
      rw [if_pos rfl]
      exact hexec
    · have hexec := State.decodeBy_of_ok (path := otherResponsePath) hm hb h7 rfl
      rw [State.deliver_unrecognized] at hexec
      rw [if_neg (by simp : Instr.frameRspOther c ≠ .frameRspErr)]
      exact hexec
  · subst hi
    rw [← ht]
    exact exec_frameNtfTag_of_input hm hb h7

end Sys2Proof.Machine

/-! ## ENC, LOOPBACK, DEC, PEXT (95_test_vectors.md program P3) -/

namespace Sys2Proof.Machine

variable {s : State} {p : List Byte}

theorem loopbackOps_of_output {o : List Byte} (h : s.output = .ok o) : loopbackOps s = .ok (loadOps o) := by
  rw [loopbackOps, h]
  rfl

/-- A LOAD and the command after it: the command is performed on the bytes loaded. -/
theorem core_run_load_then_command {bs : List Byte} {w : CommandWord} {es : List HostEvent}
    (hfits : bs.length ≤ s.config.bufCap) (hscript : s.script = loadOps bs ++ .command w :: es) :
    ∃ t : State, Host.Core.run core (bs.length + 2) s = exec (decodeCommand w) t ∧ t.input = .ok bs ∧
      t.config = s.config ∧ t.script = es := by
  obtain ⟨t, hrun, hinput, -, ht⟩ := loadedBytesAreTheInput s bs (.command w :: es) hfits hscript
  have hconfig : t.config = s.config := by rw [ht]
  have htscript : t.script = .command w :: es := by rw [ht]
  exact ⟨t.setScript es, (core_run_last hrun).trans (step_command htscript), hinput, hconfig, rfl⟩

/-- DEC takes a built tag notification apart (R89), and PEXT then extracts the whole payload (R107): DEC leaves the input
as it was. -/
theorem dec_then_pext_of_enc (hconfig : s.config.IsFcodec) (h4 : 4 ≤ p.length) (hp : p.length ≤ 65535)
    (hinput : s.input = .ok (enc s.config 0x02 0x22 p)) :
    ∃ u, exec .dec s = .next u ∧ u.res = 0xA0#8 ∧ u.rssi = byteAt p 0 ∧ u.pcw = byteAt p 1 ++ byteAt p 2 ∧
      u.output = .ok (p.drop 3) ∧ u.script = s.script ∧
      ∃ v, exec .pext u = .next v ∧ v.res = 0x80#8 ∧ v.output = .ok p := by
  obtain ⟨hm, ht, -⟩ := hconfig
  have hdec := dec_enc_tag hm hp [] ht (s.cfg.getLsbD 0) (by omega) (by omega)
  have hpext := pext_enc hm 0x02 0x22 hp []
  rw [List.append_nil] at hdec hpext
  have hcap := State.input_le_cap hinput
  rw [length_enc] at hcap
  obtain ⟨u, hu, hout, hregs⟩ := State.deliver_tagDetected_registers s (byteAt p 0) (byteAt p 1 ++ byteAt p 2)
    (epc := p.drop 3) (by simp; omega)
  obtain ⟨huinput, -, -⟩ := State.deliver_keeps hu
  obtain ⟨v, hv, hvout, hvregs⟩ := exec_pext_of_ok (huinput.trans hinput) hpext
  exact ⟨u, by rw [exec_dec_of_input hinput, hdec, hu], by rw [hregs], by rw [hregs], by rw [hregs], hout, by rw [hregs],
    v, hv, by rw [hvregs], hvout⟩

/-- Settles O43: ENC delivers the frame, LOOPBACK loads it, and DEC and PEXT read it back. -/
theorem encodeLoopbackDecodeRoundTrip : Obligations.EncodeLoopbackDecodeRoundTrip := by
  intro s p es hconfig hinput h4 hp hfits
  have hm : s.config.csumMinSpan = 4 := hconfig.1
  have henc := enc_eq_encodedFrame hm 0x02 0x22 p hp
  obtain ⟨t, ht, hout, hregs⟩ := State.deliverFrame_of_fits 0x02 0x22 hm hp hfits
  have htconfig : t.config = s.config := by rw [hregs]
  refine ⟨t, loadOps (encodedFrame 0x02 0x22 p), (execEnc_of_fits 0x02 0x22 hinput hp hfits).trans ht,
    loopbackOps_of_output hout, by simp [loadOps, pushsOps], ?_⟩
  obtain ⟨w, hrun, hwinput, hwconfig, hwscript⟩ := core_run_load_then_command (bs := encodedFrame 0x02 0x22 p)
    (w := 0x90000#20) (es := es)
    (s := { t with script := loadOps (encodedFrame 0x02 0x22 p) ++ .command 0x90000#20 :: es })
    (by simpa [htconfig] using hfits) rfl
  have hwconfig : w.config = s.config := hwconfig.trans htconfig
  rw [length_encodedFrame] at hrun
  obtain ⟨u, hu, hres, hrssi, hpcw, huout, huscript, hpext⟩ :=
    dec_then_pext_of_enc (s := w) (hwconfig ▸ hconfig) h4 hp (by rw [hwinput, hwconfig, henc])
  exact ⟨u, hrun.trans hu, hres, hrssi, hpcw, huout, huscript.trans hwscript, hpext⟩

end Sys2Proof.Machine
